-- ==== Sys2Proof/Word.lean ====
section
/-! DEFINITION. The plain types of the block: a cell byte, the 6-bit operation word, the encoder variants and the shape
of a ROM. What the bits of these mean stands in Decode.lean and Machine/. -/

namespace Sys2Proof

/-- A ROM cell, or the contents of `state_q` (00_scope.md R7: 8 bits). -/
abbrev Byte := BitVec 8

/-- The operation word: the value of the input ports at a rising clock edge (30_encoding.md R70: 6 bits). -/
abbrev OpWord := BitVec 6

/-- The state row of a table, 0 to 7 (00_scope.md R7). -/
abbrev Row := BitVec 3

/-- The pin sample, which is also a table's column, 0 to 3: bit 0 is pin A, bit 1 is pin B (00_scope.md R7, R15). -/
abbrev Pin := BitVec 2

/-- The closed set of encoder variants (00_scope.md R2, R15; 10_state.md R33). -/
inductive Variant where
  /-- FullStep, code `0b00`. -/
  | full
  /-- HalfStep, code `0b01`. -/
  | half
  /-- Tristate, code `0b10`. -/
  | tri
deriving DecidableEq, Repr

/-- The contents of one transition table: a total function from a row and a pin sample to a cell
(00_scope.md R10, 20_memory.md R40). -/
abbrev Rom := Row → Pin → Byte

end Sys2Proof
end

