-- ==== Sys2Proof/Machine/Fields.lean ====
section
/-! DEFINITION. The bit fields of a cell, which are also the fields of `state_q` (00_scope.md R14, 10_state.md R21). -/

namespace Sys2Proof.Machine

/-- `next(b) = b[3:0]`, the next-state field (00_scope.md R14); of `state_q` it is the field `cur` (10_state.md R21). -/
def nextField (b : Byte) : BitVec 4 := b.extractLsb' 0 4

/-- `dir(b) = b[5:4]`, the direction field (00_scope.md R14); of `state_q` it is the field `last_dir` (10_state.md R21, R28). -/
def dirField (b : Byte) : BitVec 2 := b.extractLsb' 4 2

/-- Bits 7:6, the field `hi` of `state_q` (10_state.md R21). -/
def hiField (b : Byte) : BitVec 2 := b.extractLsb' 6 2

/-- `b[2:0]`, the row that the next `PROC` reads (20_memory.md R43). -/
def rowField (b : Byte) : Row := b.extractLsb' 0 3

end Sys2Proof.Machine
end

