-- ==== Sys2Proof/Machine/Rom.lean ====
section
/-! DEFINITION. What the spec asks of the contents of the three tables: the well-formedness check `WF` (20_memory.md R47)
and the constraints of R49, the SOURCE ones apart from the READING ones. -/

namespace Sys2Proof.Machine

/-- The three conditions of `WF` on one cell (20_memory.md R47): bit 3 is 0, bits 7:6 are 0, bits 5:4 are not `0b10`. -/
def cellWf (b : Byte) : Bool :=
  !b.getLsbD 3 && hiField b == 0b00#2 && dirField b != 0b10#2

/-- `WF(R)`: every one of the 32 cells meets the three conditions (20_memory.md R47). -/
abbrev romWf (R : Rom) : Prop := ∀ (s : Row) (p : Pin), cellWf (R s p) = true

/-- The cell that a `PROC` with sample `p` reads after the cell `b` was loaded: `R[next(b)][p]`, the row taken as
`next(b)[2:0]` (20_memory.md R43). -/
def follow (R : Rom) (b : Byte) (p : Pin) : Byte := R (rowField b) p

/-- FULL_SEQ_CW, SOURCE (20_memory.md R50): from START the samples 2, 0, 1, 3 give 0, 0, 0, +1 and end in START. -/
abbrev fullSeqCw (F : Rom) : Prop :=
  let a := F 4 2
  let b := follow F a 0
  let c := follow F b 1
  let d := follow F c 3
  dirField a = 0b00 ∧ dirField b = 0b00 ∧ dirField c = 0b00 ∧ dirField d = 0b01 ∧ nextField d = 4

/-- FULL_SEQ_CCW, SOURCE (20_memory.md R51): from START the samples 1, 0, 2, 3 give 0, 0, 0, -1 and end in START. -/
abbrev fullSeqCcw (F : Rom) : Prop :=
  let a := F 4 1
  let b := follow F a 0
  let c := follow F b 2
  let d := follow F c 3
  dirField a = 0b00 ∧ dirField b = 0b00 ∧ dirField c = 0b00 ∧ dirField d = 0b11 ∧ nextField d = 4

/-- FULL_FIRE, SOURCE (20_memory.md R52): a cell carries a direction only when it returns to START from the final
sub-state of that direction. -/
abbrev fullFire (F : Rom) : Prop :=
  ∀ (s : Row) (p : Pin), dirField (F s p) ≠ 0b00 →
    nextField (F s p) = 4 ∧
      ((s = 7 ∧ dirField (F s p) = 0b01) ∨ (s = 1 ∧ dirField (F s p) = 0b11))

/-- FULL_NOISE, READING D13 (20_memory.md R54). -/
abbrev fullNoise (F : Rom) : Prop :=
  (nextField (F 4 0) ≠ 3 ∧ nextField (F 4 0) ≠ 5) ∧
    (nextField (F 4 3) ≠ 1 ∧ nextField (F 4 3) ≠ 3 ∧ nextField (F 4 3) ≠ 5 ∧ nextField (F 4 3) ≠ 7)

/-- FULL_PATH, READING D10 (20_memory.md R55). -/
abbrev fullPath (F : Rom) : Prop :=
  (F 4 2 = 0x05 ∧ F 5 0 = 0x06 ∧ F 6 1 = 0x07 ∧ F 7 3 = 0x14) ∧
    (F 4 1 = 0x03 ∧ F 3 0 = 0x02 ∧ F 2 2 = 0x01 ∧ F 1 3 = 0x34)

/-- HALF_ASYM, SOURCE (20_memory.md R56). -/
abbrev halfAsym (H : Rom) : Prop := nextField (H 2 2) = 7 ∧ nextField (H 6 1) = 1

/-- TRI_ROWS, the SOURCE part: rows 2 and 6 hold INVALID in every column (20_memory.md R58). -/
abbrev triRows (T : Rom) : Prop := ∀ p : Pin, nextField (T 2 p) = 0 ∧ nextField (T 6 p) = 0

/-- TRI_ROWS, the whole-byte READING D11 (20_memory.md R58). -/
abbrev triRowsWhole (T : Rom) : Prop := ∀ p : Pin, T 2 p = 0x00 ∧ T 6 p = 0x00

/-- TRI_PIN1, SOURCE (20_memory.md R59). -/
abbrev triPin1 (T : Rom) : Prop := ∀ s : Row, dirField (T s 1) = 0b00

/-- The SOURCE constraints of all three tables (20_memory.md R49; 90_conflicts.md C9). FULL_FINAL_CELLS (R53) follows
from them and `WF`. -/
abbrev romSource (F H T : Rom) : Prop :=
  fullSeqCw F ∧ fullSeqCcw F ∧ fullFire F ∧ halfAsym H ∧ triRows T ∧ triPin1 T

end Sys2Proof.Machine
end

