-- ==== Sys2Proof/Config.lean ====
section
/-! DEFINITION. What is fixed for a run and left open by the spec: the contents of the three ROMs (00_scope.md R10; D9). -/

namespace Sys2Proof

/-- A table written as its eight rows of four cells, each row in the order of the pin samples. -/
def Rom.ofRows (rows : List (List Byte)) : Rom := fun s p => (rows.getD s.toNat []).getD p.toNat 0x00

/-- `ROM_FULL` of the non-vacuity witness in 95_test_vectors.md L2.8: NOT the hardware's table, and no claim rests on it. -/
def witnessFull : Rom := Rom.ofRows
  [[0x00, 0x00, 0x00, 0x04], [0x02, 0x00, 0x01, 0x34], [0x02, 0x03, 0x01, 0x00], [0x02, 0x03, 0x00, 0x04],
   [0x00, 0x03, 0x05, 0x04], [0x06, 0x00, 0x05, 0x04], [0x06, 0x07, 0x05, 0x00], [0x06, 0x07, 0x00, 0x14]]

/-- `ROM_HALF` of the witness in 95_test_vectors.md L2.8: NOT the hardware's table. -/
def witnessHalf : Rom := fun s p => if s = 2 ∧ p = 2 then 0x07 else if s = 6 ∧ p = 1 then 0x01 else 0x04

/-- `ROM_TRI` of the witness in 95_test_vectors.md L2.8: NOT the hardware's table. -/
def witnessTri : Rom := fun s _ => if s = 2 ∨ s = 6 then 0x00 else 0x04

/-- Three ROM contents that a model may admit: each `WF`, and the SOURCE constraints (00_scope.md R10, 20_memory.md R49).
The field defaults only show that there are such contents (95_test_vectors.md L2.8); nothing unfolds to them. -/
structure AdmittedRoms where
  full : Rom := witnessFull
  half : Rom := witnessHalf
  tri : Rom := witnessTri
  full_wf : Machine.romWf full := by decide
  half_wf : Machine.romWf half := by decide
  tri_wf : Machine.romWf tri := by decide
  source : Machine.romSource full half tri := by decide
deriving Inhabited

/-- The ROM contents, a FREE VALUE held to what the spec asks of it: the source never lists the cells
(00_scope.md R10, 20_memory.md R60; 91_not_in_source.md N1). Log 1. -/
opaque Config.roms : AdmittedRoms

/-- The contents of the ROM of a variant, where a run names none (20_memory.md R41). -/
def Config.rom : Variant → Rom
  | .full => Config.roms.full
  | .half => Config.roms.half
  | .tri => Config.roms.tri

end Sys2Proof
end

