-- ==== Sys2Proof/Syntax.lean ====
section
/-! DEFINITION. The operations of the block: one constructor per row of spec/opcode_table.json. -/

namespace Sys2Proof

/-- One operation, chosen by the operation word of a cycle (30_encoding.md R72, R75). The bits a row ignores carry no
meaning (R80) and are no part of the operation. -/
inductive Instr where
  /-- `RESET FULL` (41_control.md R100). -/
  | resetFull
  /-- `RESET HALF` (41_control.md R100). -/
  | resetHalf
  /-- `RESET TRI` (41_control.md R100). -/
  | resetTri
  /-- The reserved reset with variant code `0b11` (41_control.md R101, 30_encoding.md R79). -/
  | resetReserved
  /-- `PROC p` (40_transition.md R88): process the pin sample `p`. -/
  | proc (p : Pin)
  /-- `IDLE` (41_control.md R104). -/
  | idle
deriving DecidableEq, Repr

end Sys2Proof
end

