-- ==== Sys2Proof/WellFormed.lean ====
section
/-! DEFINITION. The check on an operation as syntax. The type of `Instr` leaves it nothing to refuse: `PROC`'s one operand
is the 2-bit `pin` port, so a sample outside 0 to 3 cannot be written (30_encoding.md R81), and no other operation has an
operand (R74). The checks of this hardware that do refuse something are `Machine.romWf` (20_memory.md R47) and
`Machine.Pseudo.wf` (30_encoding.md R78). -/

namespace Sys2Proof

/-- Every operation is well-formed: each has at least one operation word (30_encoding.md R75), and no value of its operand is
illegal or reserved as syntax (R80). The reserved reset is an operation that the machine refuses (R79), not ill-formed
syntax: its words decode. -/
def Instr.wellFormed : Instr → Bool
  | .resetFull => true
  | .resetHalf => true
  | .resetTri => true
  | .resetReserved => true
  | .proc _ => true
  | .idle => true

end Sys2Proof
end

