-- ==== Sys2Proof/Decode.lean ====
section
/-! DEFINITION. The decoder of the operation word and the encoder, both from the opcode map of 30_encoding.md (R70 to R77). -/

namespace Sys2Proof

/-- `v = word[5:4]`, the port `variant_sel` (30_encoding.md R70). -/
def OpWord.variantSel (w : OpWord) : BitVec 2 := w.extractLsb' 4 2

/-- `r = word[3]`, the port `rst` (30_encoding.md R70). -/
def OpWord.rst (w : OpWord) : Bool := w.getLsbD 3

/-- `e = word[2]`, the port `en` (30_encoding.md R70). -/
def OpWord.en (w : OpWord) : Bool := w.getLsbD 2

/-- `p = word[1:0]`, the port `pin` (30_encoding.md R70, R73). -/
def OpWord.pin (w : OpWord) : Pin := w.extractLsb' 0 2

/-- The word that the input ports make: `{variant_sel, rst, en, pin}` (30_encoding.md R70; 10_state.md R26). -/
def OpWord.ofPorts (variantSel : BitVec 2) (rst en : Bool) (pin : Pin) : OpWord :=
  variantSel ++ BitVec.ofBool rst ++ BitVec.ofBool en ++ pin

/-- Decoding is by priority, `rst` before `en`, and total: every one of the 64 words is one operation
(30_encoding.md R72, R75). -/
def decode (w : OpWord) : Instr :=
  if w.rst then
    match w.variantSel with
    | 0b00#2 => .resetFull
    | 0b01#2 => .resetHalf
    | 0b10#2 => .resetTri
    | _ => .resetReserved
  else if w.en then .proc w.pin
  else .idle

/-- The canonical word of an operation: every ignored bit is 0 (30_encoding.md R77). R77 gives the reserved reset no
canonical word; the model takes its match value `0x38` (R75), DEDUCED, log 10. -/
def encode : Instr → OpWord
  | .resetFull => 0x08
  | .resetHalf => 0x18
  | .resetTri => 0x28
  | .resetReserved => 0x38
  | .proc p => OpWord.ofPorts 0b00 false true p
  | .idle => 0x00

/-- Why bits are not an operation word. -/
inductive DecodeError where
  /-- Raised by `decodeBits`: a bit above bit 5 is set, and the block has no port for it (30_encoding.md R70). Safe. -/
  | widerThanWord (bits : Nat)
deriving DecidableEq, Repr

/-- The operation word held in the low `nbits` bits of `w`, where every bit above bit 5 is 0: the ports are 6 bits wide
(30_encoding.md R70, R71). -/
def opWordOfBits (nbits w : Nat) : Except DecodeError OpWord :=
  if w % 2 ^ nbits < 64 then .ok (BitVec.ofNat 6 (w % 2 ^ nbits)) else .error (.widerThanWord w)

/-- The decoder on any bits: an operation, or a rejection by name. -/
def decodeBits (nbits w : Nat) : Except DecodeError Instr :=
  match opWordOfBits nbits w with
  | .ok x => .ok (decode x)
  | .error e => .error e

/-- The operation that the decoder reads from `w`, with the bits numbered as spec/opcode_table.json numbers them. -/
def decodeTableWord (nbits w : Nat) : Option Instr :=
  match decodeBits nbits w with
  | .ok i => some i
  | .error _ => none

/-- One row of the opcode map (30_encoding.md R75): a word belongs to the row when its bits under `mask` are `match`. -/
structure OpcodeRow where
  mask : OpWord
  value : OpWord
deriving DecidableEq, Repr

/-- The row's pattern holds of the word (30_encoding.md R75). -/
def OpcodeRow.holds (r : OpcodeRow) (w : OpWord) : Bool := w &&& r.mask == r.value

/-- The row of the opcode map that an operation stands in (30_encoding.md R75). -/
def opcodeRow : Instr → OpcodeRow
  | .resetFull => ⟨0x38, 0x08⟩
  | .resetHalf => ⟨0x38, 0x18⟩
  | .resetTri => ⟨0x38, 0x28⟩
  | .resetReserved => ⟨0x38, 0x38⟩
  | .proc _ => ⟨0x0C, 0x04⟩
  | .idle => ⟨0x0C, 0x00⟩

/-- The six rows of the opcode map, in the order of 30_encoding.md R75. -/
def opcodeMap : List OpcodeRow :=
  [⟨0x38, 0x08⟩, ⟨0x38, 0x18⟩, ⟨0x38, 0x28⟩, ⟨0x38, 0x38⟩, ⟨0x0C, 0x04⟩, ⟨0x0C, 0x00⟩]

end Sys2Proof
end

