-- ==== Sys2Proof/Machine/Operands.lean ====
section
/-! DEFINITION. The two operand forms (30_encoding.md R73, R74) and the ROM address they lead to (20_memory.md R42, R44). -/

namespace Sys2Proof.Machine

/-- The variant code of an operand or of the multiplexer's select: `0b11` is reserved and names no variant
(10_state.md R24, 30_encoding.md R74). -/
def variantOfCode (v : BitVec 2) : Option Variant :=
  match v with
  | 0b00#2 => some .full
  | 0b01#2 => some .half
  | 0b10#2 => some .tri
  | _ => none

/-- The 2-bit code that `variant_q` holds for a variant (10_state.md R24). -/
def variantCode : Variant → BitVec 2
  | .full => 0b00
  | .half => 0b01
  | .tri => 0b10

/-- Pin A of a sample, bit 0 (30_encoding.md R73). -/
def pinA (p : Pin) : Bool := p.getLsbD 0

/-- Pin B of a sample, bit 1 (30_encoding.md R73). -/
def pinB (p : Pin) : Bool := p.getLsbD 1

/-- The ROM address `{row[2:0], pin[1:0]}` (20_memory.md R42). -/
def romAddr (s : Row) (p : Pin) : BitVec 5 := s ++ p

/-- The row of a ROM address (20_memory.md R42). -/
def addrRow (a : BitVec 5) : Row := a.extractLsb' 2 3

/-- The column of a ROM address (20_memory.md R42). -/
def addrPin (a : BitVec 5) : Pin := a.extractLsb' 0 2

/-- The flattened address `{variant[1:0], row[2:0], pin[1:0]}` of a cell (20_memory.md R44). -/
def flatAddr (v : Variant) (a : BitVec 5) : BitVec 7 := variantCode v ++ a

end Sys2Proof.Machine
end

