-- ==== Sys2Proof/Machine/State.lean ====
section
/-! DEFINITION. The state of the block (10_state.md R33), the reasons a step can stop (60_exceptions.md R112), the state
after reset and the state before it. -/

namespace Sys2Proof.Machine

/-- The cells of the ROMs that a run names, by flattened address (20_memory.md R44); a cell not listed is that of
`Config.rom`. Log 2. -/
abbrev Memory := List Host.Cell

/-- What the spec calls a fault (60_exceptions.md R112). -/
inductive Fault where
  /-- `UnwrittenState`: raised by `PROC` when `state_q` or `variant_q` is unwritten, before the first reset
  (41_control.md R103). Records the cycle index (60_exceptions.md R112). Safe: the spec gives that cycle no meaning. -/
  | unwrittenState (cycle : Nat)
deriving DecidableEq, Repr

/-- What has no meaning in the model. -/
inductive Refusal where
  /-- Raised by `exec`'s arm of an operation that has no meaning yet; no arm does now. Safe. -/
  | notModelled (mnemonic : String)
  /-- `ReservedVariant`: raised by a reset with variant code `0b11` (41_control.md R101) and by a read of the flattened ROM
  space at `0x60` to `0x7F` (20_memory.md R44). Records the cycle index (60_exceptions.md R112). Safe. -/
  | reservedVariant (cycle : Nat)
  /-- `IllFormedRom`: raised by `fetch` before a cycle of a configuration with a ROM that fails `WF` (20_memory.md R47,
  60_exceptions.md R112, R115). Records the ROM, and the row and column of its first failing cell. Safe. -/
  | illFormedRom (rom : Variant) (row : Row) (col : Pin)
  /-- Raised by `fetch` when the host has driven no further operation word: the run ends after its last word
  (70_reset_and_hazards.md R135). No operation raises it, and it leaves no mark on a run. Safe. Log 4. -/
  | noOperationWord
deriving DecidableEq, Repr

/-- The state: the three registers of 10_state.md R33, the ROM cells that the run names, the model's sticky marks, and the
words and the cycle count that a run supplies. -/
structure State where
  /-- `state_q`, 8 bits; `none` before the first reset (10_state.md R20, R29, R33). -/
  stateQ : Option Byte
  /-- `variant_q`; `none` before the first reset (10_state.md R24, R29, R33). -/
  variantQ : Option Variant
  /-- `valid_q`, 1 bit; `none` before the first cycle (10_state.md R25, R29, R33). -/
  validQ : Option Bool
  /-- The ROM cells that this run names (00_scope.md R10, 20_memory.md R44). Nothing writes it (R40). -/
  mem : Memory
  /-- The operation words that the host drives in the coming cycles, the next cycle's first (30_encoding.md R70,
  10_state.md R32). The model's own field, log 4. -/
  inputs : List OpWord
  /-- The index of the coming cycle (60_exceptions.md R112, 70_reset_and_hazards.md R136). The model's own field, log 5. -/
  cycle : Nat
  /-- The sticky fault mark (10_state.md R33, 60_exceptions.md R113). -/
  fault : Option Fault
  /-- The sticky refusal mark, with its reason (10_state.md R33, 60_exceptions.md R113). -/
  refused : Option Refusal
deriving DecidableEq, Repr

/-- Before the first reset cycle: the three registers hold no value (10_state.md R29). -/
def State.unwritten : State where
  stateQ := none
  variantQ := none
  validQ := none
  mem := []
  inputs := []
  cycle := 0
  fault := none
  refused := none

/-- Right after a reset cycle (10_state.md R30, 70_reset_and_hazards.md R124): `state_q = 0x04`, `valid_q = 0`, and
`variant_q` the `variant_sel` of that cycle, here FULL. DESIGN CHOICE (the spec leaves the variant to the host), log 3. -/
def State.reset : State where
  stateQ := some 0x04
  variantQ := some .full
  validQ := some false
  mem := []
  inputs := []
  cycle := 0
  fault := none
  refused := none

end Sys2Proof.Machine
end

