-- ==== Sys2Proof/Machine/Ops.lean ====
section
/-! DEFINITION. The named operations over the registers, the ROMs, the marks and the word sequence. The block takes no
exception and has no return from one (60_exceptions.md R110, R116, R117): there is no such operation here. -/

namespace Sys2Proof.Machine

/-! ### Register updates -/

/-- `state_q <- b` (10_state.md R20). -/
def State.setStateQ (s : State) (b : Byte) : State := { s with stateQ := some b }

/-- `variant_q <- v` (10_state.md R24). -/
def State.setVariantQ (s : State) (v : Variant) : State := { s with variantQ := some v }

/-- `valid_q <- x` (10_state.md R25). -/
def State.setValidQ (s : State) (x : Bool) : State := { s with validQ := some x }

/-- The words that the host drives from here on (30_encoding.md R70). -/
def State.setInputs (s : State) (ws : List OpWord) : State := { s with inputs := ws }

/-- The ROM cells that the run names (00_scope.md R10). -/
def State.setMem (s : State) (m : Memory) : State := { s with mem := m }

/-- The rising edge is past (70_reset_and_hazards.md R136). -/
def State.nextCycle (s : State) : State := { s with cycle := s.cycle + 1 }

/-- Record a fault; the mark is sticky (60_exceptions.md R113). -/
def State.markFault (s : State) (f : Fault) : State := { s with fault := some f }

/-- Record a refusal; the mark is sticky (60_exceptions.md R113). -/
def State.markRefused (s : State) (r : Refusal) : State := { s with refused := some r }

/-! ### The ROMs -/

/-- The byte listed at a flattened address, the first of them where there are several. -/
def Memory.listed : Memory → Nat → Option Byte
  | [], _ => none
  | (k, b) :: m, a => if k = a then some b else Memory.listed m a

/-- `RomRead(var, a)` (20_memory.md R42) through the multiplexer of R41: the cell that the run names, else the free cell
of the configuration. It has no side effect (R46). -/
def romRead (m : Memory) (v : Variant) (a : BitVec 5) : Byte :=
  match Memory.listed m (flatAddr v a).toNat with
  | some b => b
  | none => Config.rom v (addrRow a) (addrPin a)

/-- `ROM_v` as the table that the spec's constraints speak of: `ROM_v[s][p] = RomRead(v, {s, p})` (20_memory.md R42). -/
def Memory.rom (m : Memory) (v : Variant) : Rom := fun s p => romRead m v (romAddr s p)

/-- The flattened view (20_memory.md R44): no ROM answers at `0x60` to `0x7F`, where a model refuses `ReservedVariant`. -/
def readFlat (m : Memory) (a : BitVec 7) (cycle : Nat) : Except Refusal Byte :=
  match variantOfCode (a.extractLsb' 5 2) with
  | some v => .ok (romRead m v (a.extractLsb' 0 5))
  | none => .error (.reservedVariant cycle)

/-- `NextCell(cfg, var, s, p) = RomRead(var, {s[2:0], p[1:0]})` (40_transition.md R86). -/
def nextCell (m : Memory) (v : Variant) (s : Byte) (p : Pin) : Byte := romRead m v (romAddr (rowField s) p)

/-- What a flattened address reads as while no cell is listed there: the free cell of the configuration, and nothing
outside the three ROMs. Log 2. -/
def unlisted (a : Nat) : Option Byte :=
  match variantOfCode (BitVec.ofNat 2 (a / 32)) with
  | some v => if a < 0x60 then some (Config.rom v (BitVec.ofNat 3 (a / 4)) (BitVec.ofNat 2 a)) else none
  | none => none

/-- The byte at a flattened address, where there is a ROM: the one the run names, else the configuration's. -/
def Memory.byte (m : Memory) (a : Nat) : Option Byte :=
  match unlisted a with
  | some d => some ((Memory.listed m a).getD d)
  | none => none

/-- The canonical form: addresses rise strictly, each is that of a cell, and no entry equals what an unlisted address
reads as. -/
abbrev Memory.wf (m : Memory) : Prop :=
  m.Pairwise (fun x y => x.1 < y.1) ∧ ∀ c ∈ m, c.1 < 0x60 ∧ unlisted c.1 ≠ some c.2

/-- Place a cell in address order, in the stead of one at the same address. -/
def Memory.insertCell (a : Nat) (b : Byte) : Memory → Memory
  | [] => [(a, b)]
  | (k, c) :: m =>
    if a < k then (a, b) :: (k, c) :: m
    else if a = k then (a, b) :: m
    else (k, c) :: Memory.insertCell a b m

/-- Name the cell at a flattened address when a configuration is written (00_scope.md R10). It keeps the canonical form;
an address outside the ROMs is left alone. No operation of the block calls it: there is no `MemWrite` (00_scope.md R13). -/
def Memory.setCell (m : Memory) (a : Nat) (b : Byte) : Memory :=
  if unlisted a = none then m
  else if unlisted a = some b then m.filter (fun c => c.1 ≠ a)
  else Memory.insertCell a b m

/-- Every cell of the three ROMs, FULL, HALF, TRI, each row by row. -/
def allCells : List (Variant × Row × Pin) :=
  [Variant.full, Variant.half, Variant.tri].flatMap fun v =>
    [0#3, 1#3, 2#3, 3#3, 4#3, 5#3, 6#3, 7#3].flatMap fun s =>
      [0#2, 1#2, 2#2, 3#2].map fun p => (v, s, p)

/-- A cell that the run names and that fails `WF`. A cell the run does not name passes, because `Config.rom` is `WF`. -/
def failsWf (m : Memory) (c : Variant × Row × Pin) : Bool :=
  match Memory.listed m (flatAddr c.1 (romAddr c.2.1 c.2.2)).toNat with
  | some b => !cellWf b
  | none => false

/-- The first cell that fails `WF`, in the order FULL, HALF, TRI and row by row (60_exceptions.md R112: "which ROM, and the
row and column of the first failing cell"; the order of the ROMs and cells is DEDUCED from R44's map, log 7). -/
def firstIllFormed (m : Memory) : Option (Variant × Row × Pin) := allCells.find? (failsWf m)

/-- All three ROMs pass `WF`: the configuration may be admitted (20_memory.md R47). -/
abbrev Memory.admitted (m : Memory) : Prop := ∀ v, romWf (m.rom v)

/-! ### Reset -/

/-- The register writes of a legal reset cycle (41_control.md R100, 10_state.md R30). -/
def loadReset (v : Variant) (s : State) : State := ((s.setStateQ 0x04).setVariantQ v).setValidQ false

/-- `RESET(v)` of 41_control.md R100 and R101: code `0b11` is refused and writes no register. -/
def resetTo (v : BitVec 2) (s : State) : Host.Outcome State Fault Refusal :=
  match variantOfCode v with
  | some x => .next (loadReset x s)
  | none => .refused (.reservedVariant s.cycle)

/-! ### The cycle -/

/-- The operation of the coming cycle and the state it acts on (40_transition.md R85): none in a state with a mark
(60_exceptions.md R113) or in a configuration with an ill-formed ROM (R115); else the next operation word, decoded. -/
def fetch (s : State) : Host.Outcome (Instr × State) Fault Refusal :=
  match s.fault, s.refused with
  | some f, _ => .fault f
  | none, some r => .refused r
  | none, none =>
    match firstIllFormed s.mem with
    | some (v, row, col) => .refused (.illFormedRom v row col)
    | none =>
      match s.inputs with
      | [] => .refused .noOperationWord
      | w :: ws => .next (decode w, s.setInputs ws)

/-- The edge after an operation: the cycle index of a next state is one more. -/
def endCycle (o : Host.Outcome State Fault Refusal) : Host.Outcome State Fault Refusal :=
  match o with
  | .next t => .next t.nextCycle
  | .fault f => .fault f
  | .refused r => .refused r

/-- `s` with the word in the low `nbits` bits of `w` driven in the coming cycle; no word where those bits are none
(`opWordOfBits`). -/
def driveBits (s : State) (nbits w : Nat) : State :=
  match opWordOfBits nbits w with
  | .ok x => s.setInputs (x :: s.inputs.drop 1)
  | .error _ => s.setInputs []

end Sys2Proof.Machine
end

