-- ==== Sys2Proof/Machine/Control.lean ====
section
/-! DEFINITION. The control operations: the four resets and `IDLE` (41_control.md). -/

namespace Sys2Proof.Machine

/-- `RESET FULL` (41_control.md R100). -/
def execResetFull (s : State) : Host.Outcome State Fault Refusal := resetTo 0b00 s

/-- `RESET HALF` (41_control.md R100). -/
def execResetHalf (s : State) : Host.Outcome State Fault Refusal := resetTo 0b01 s

/-- `RESET TRI` (41_control.md R100). -/
def execResetTri (s : State) : Host.Outcome State Fault Refusal := resetTo 0b10 s

/-- The reserved reset: refused with `ReservedVariant`, no register written (41_control.md R101). -/
def execResetReserved (s : State) : Host.Outcome State Fault Refusal := resetTo 0b11 s

/-- `IDLE`: `valid_q <- 0`; `state_q` and `variant_q` are unchanged, and stay unwritten if unwritten
(41_control.md R104). -/
def execIdle (s : State) : Host.Outcome State Fault Refusal := .next (s.setValidQ false)

end Sys2Proof.Machine
end

