-- ==== Sys2Proof/Machine/Transition.lean ====
section
/-! DEFINITION. The transition operation `PROC p` (40_transition.md R88), which is the source's `process`. -/

namespace Sys2Proof.Machine

/-- `PROC p`: the whole cell `NextCell(cfg, variant_q, state_q, p)` is loaded into `state_q`, and `valid_q <- 1`
(40_transition.md R88); before the first reset it faults `UnwrittenState` (41_control.md R103). -/
def execProc (p : Pin) (s : State) : Host.Outcome State Fault Refusal :=
  match s.stateQ, s.variantQ with
  | some b, some v => .next ((s.setStateQ (nextCell s.mem v b p)).setValidQ true)
  | _, _ => .fault (.unwrittenState s.cycle)

end Sys2Proof.Machine
end

