-- ==== Sys2Proof/Machine/Dispatch.lean ====
section
/-! DEFINITION. The dispatch of an operation to its meaning, one arm per constructor (40_transition.md R85). -/

namespace Sys2Proof.Machine

def exec (i : Instr) (s : State) : Host.Outcome State Fault Refusal :=
  match i with
  | .resetFull => Sys2Proof.Machine.execResetFull s
  | .resetHalf => Sys2Proof.Machine.execResetHalf s
  | .resetTri => Sys2Proof.Machine.execResetTri s
  | .resetReserved => Sys2Proof.Machine.execResetReserved s
  | .proc p => Sys2Proof.Machine.execProc p s
  | .idle => Sys2Proof.Machine.execIdle s

end Sys2Proof.Machine
end

