-- ==== Sys2Proof/Machine/Step.lean ====
section
/-! DEFINITION. One rising clock edge (40_transition.md R85). -/

namespace Sys2Proof.Machine

/-- One step: the operation of the coming cycle is fetched and executed, and the cycle ends (40_transition.md R85). -/
def step (s : State) : Host.Outcome State Fault Refusal :=
  match fetch s with
  | .next (i, t) => endCycle (exec i t)
  | .fault f => .fault f
  | .refused r => .refused r

/-- `s` with the operation whose bits are `w` on the input ports in the coming cycle. -/
def State.withFetchWord (s : State) (nbits w : Nat) : State := driveBits s nbits w

end Sys2Proof.Machine
end

