-- ==== Sys2Proof/Machine/Assembler.lean ====
section
/-! DEFINITION. The assembler syntax (30_encoding.md R76) and the pseudo-instructions (R78). Text is a list of characters,
one operation per line. -/

namespace Sys2Proof.Machine

/-- The operation that resets to a variant (30_encoding.md R76). -/
def resetInstr : Variant → Instr
  | .full => .resetFull
  | .half => .resetHalf
  | .tri => .resetTri

/-- The pseudo-instructions (30_encoding.md R78). -/
inductive Pseudo where
  | seq (ps : List Pin)
  | cwDetent
  | ccwDetent
  | wait (n : Nat)
  | switch (v : Variant)
deriving DecidableEq, Repr

/-- `WAIT n` has `n >= 1` (30_encoding.md R78); `SEQ p1, ..., pn` is read as having at least one sample (DEDUCED, log 11). -/
def Pseudo.wf : Pseudo → Bool
  | .seq ps => !ps.isEmpty
  | .cwDetent => true
  | .ccwDetent => true
  | .wait n => decide (1 ≤ n)
  | .switch _ => true

/-- The expansions (30_encoding.md R78). -/
def Pseudo.expand : Pseudo → List Instr
  | .seq ps => ps.map .proc
  | .cwDetent => [2, 0, 1, 3].map .proc
  | .ccwDetent => [1, 0, 2, 3].map .proc
  | .wait n => List.replicate n .idle
  | .switch v => [resetInstr v]

/-- Why a line is refused. -/
inductive AsmError where
  /-- Raised by `parseLine`: the line has none of the forms of 30_encoding.md R76 and R78. Safe. -/
  | notAnOperation (line : List Char)
deriving DecidableEq, Repr

/-- The text before a comment: `;` runs to the end of the line (30_encoding.md R76). -/
def beforeComment (line : List Char) : List Char := line.takeWhile (· ≠ ';')

/-- Spaces, tabs and commas stand between tokens (log 11). -/
def isBetween (c : Char) : Bool := c == ' ' || c == '\t' || c == ','

/-- The tokens of a text; `cur` holds the characters of the current one, the last first. -/
def tokensFrom (cur : List Char) : List Char → List (List Char)
  | [] => if cur.isEmpty then [] else [cur.reverse]
  | c :: cs =>
    if isBetween c then
      if cur.isEmpty then tokensFrom [] cs else cur.reverse :: tokensFrom [] cs
    else tokensFrom (c :: cur) cs

/-- The tokens of a line. -/
def tokens (line : List Char) : List (List Char) := tokensFrom [] (beforeComment line)

/-- A decimal number; `acc` is the value of the digits before. -/
def decimalFrom (acc : Nat) : List Char → Option Nat
  | [] => some acc
  | c :: cs =>
    if '0'.toNat ≤ c.toNat ∧ c.toNat ≤ '9'.toNat then decimalFrom (acc * 10 + (c.toNat - '0'.toNat)) cs else none

/-- A decimal number of at least one digit. -/
def decimal (t : List Char) : Option Nat := if t.isEmpty then none else decimalFrom 0 t

/-- One binary digit. -/
def binaryDigit (c : Char) : Option Bool := if c = '0' then some false else if c = '1' then some true else none

/-- A pin sample, `0` to `3` in decimal or `0bBA` in binary (30_encoding.md R73, R76). -/
def pinToken (t : List Char) : Option Pin :=
  match t with
  | ['0', 'b', b, a] =>
    match binaryDigit b, binaryDigit a with
    | some y, some x => some (BitVec.ofBool y ++ BitVec.ofBool x)
    | _, _ => none
  | _ =>
    match decimal t with
    | some n => if n < 4 then some (BitVec.ofNat 2 n) else none
    | none => none

/-- A variant, by name or by number (30_encoding.md R76). -/
def variantToken (t : List Char) : Option Variant :=
  if t = ['F', 'U', 'L', 'L'] ∨ t = ['0'] then some .full
  else if t = ['H', 'A', 'L', 'F'] ∨ t = ['1'] then some .half
  else if t = ['T', 'R', 'I'] ∨ t = ['2'] then some .tri
  else none

/-- All the pin samples of a list of tokens. -/
def pinTokens : List (List Char) → Option (List Pin)
  | [] => some []
  | t :: ts =>
    match pinToken t, pinTokens ts with
    | some p, some ps => some (p :: ps)
    | _, _ => none

/-- The operations of a well-formed pseudo-instruction. -/
def expandWf (q : Pseudo) : Option (List Instr) := if q.wf then some q.expand else none

/-- The operations that the tokens of one line stand for; an empty line stands for none (30_encoding.md R76, R78). -/
def parseTokens (ts : List (List Char)) : Option (List Instr) :=
  match ts with
  | [] => some []
  | m :: args =>
    if m = ['R', 'E', 'S', 'E', 'T'] then
      match args with
      | [t] => (variantToken t).map fun v => [resetInstr v]
      | _ => none
    else if m = ['S', 'W', 'I', 'T', 'C', 'H'] then
      match args with
      | [t] => (variantToken t).bind fun v => expandWf (.switch v)
      | _ => none
    else if m = ['P', 'R', 'O', 'C'] then
      match args with
      | [t] => (pinToken t).map fun p => [.proc p]
      | _ => none
    else if m = ['I', 'D', 'L', 'E'] then
      if args.isEmpty then some [.idle] else none
    else if m = ['S', 'E', 'Q'] then (pinTokens args).bind fun ps => expandWf (.seq ps)
    else if m = ['C', 'W', '_', 'D', 'E', 'T', 'E', 'N', 'T'] then
      if args.isEmpty then expandWf .cwDetent else none
    else if m = ['C', 'C', 'W', '_', 'D', 'E', 'T', 'E', 'N', 'T'] then
      if args.isEmpty then expandWf .ccwDetent else none
    else if m = ['W', 'A', 'I', 'T'] then
      match args with
      | [t] => (decimal t).bind fun n => expandWf (.wait n)
      | _ => none
    else none

/-- The operations of one line of assembler text (30_encoding.md R76). -/
def parseLine (line : List Char) : Except AsmError (List Instr) :=
  match parseTokens (tokens line) with
  | some is => .ok is
  | none => .error (.notAnOperation line)

/-- An assembler emits the canonical encoding of each operation, line by line (30_encoding.md R76, R77). -/
def assemble : List (List Char) → Except AsmError (List OpWord)
  | [] => .ok []
  | line :: rest =>
    match parseLine line with
    | .error e => .error e
    | .ok is =>
      match assemble rest with
      | .error e => .error e
      | .ok ws => .ok (is.map encode ++ ws)

end Sys2Proof.Machine
end

