-- ==== Sys2Proof/Machine/Flags.lean ====
section
/-! DEFINITION. The one flag-like field, `last_dir`, and the output decoder that reads it (10_state.md R28,
40_transition.md R92). -/

namespace Sys2Proof.Machine

/-- The output decoder `DEC`: a direction field to a step code. The row `0b10` is the spec's choice D6
(40_transition.md R92). -/
def dec (d : BitVec 2) : BitVec 2 :=
  match d with
  | 0b01#2 => 0b01
  | 0b11#2 => 0b11
  | _ => 0b00

/-- `sext_2(c)`: a 2-bit code as a two's-complement integer (00_scope.md R12). -/
def sext2 (c : BitVec 2) : Int := c.toInt

/-- The step value that a loaded cell stands for: `sext_2(DEC(dir(b)))` (40_transition.md R88, R92). -/
def stepValue (b : Byte) : Int := sext2 (dec (dirField b))

end Sys2Proof.Machine
end

