-- ==== Sys2Proof/Machine/Outputs.lean ====
section
/-! DEFINITION. The output ports, functions of the registers alone (10_state.md R26, 40_transition.md R93). An output that
depends on an unwritten register has no value (10_state.md R29). -/

namespace Sys2Proof.Machine

/-- `step_o = if valid_q = 1 then DEC(state_q[5:4]) else 0b00` (40_transition.md R93). -/
def State.stepO (s : State) : Option (BitVec 2) :=
  match s.validQ with
  | some true => s.stateQ.map fun b => dec (dirField b)
  | some false => some 0b00
  | none => none

/-- `step_valid_o = valid_q` (40_transition.md R93). -/
def State.stepValidO (s : State) : Option Bool := s.validQ

/-- `dbg_state_o = state_q[3:0]`, the debug peek (40_transition.md R93; 60_exceptions.md R122; not part of the contract,
10_state.md R27). -/
def State.dbgStateO (s : State) : Option (BitVec 4) := s.stateQ.map nextField

/-- The output triple of a cycle (70_reset_and_hazards.md R136). -/
structure Outputs where
  stepO : Option (BitVec 2)
  stepValidO : Option Bool
  dbgStateO : Option (BitVec 4)
deriving DecidableEq, Repr

/-- The outputs that the registers give (40_transition.md R93). -/
def State.outputs (s : State) : Outputs := ⟨s.stepO, s.stepValidO, s.dbgStateO⟩

end Sys2Proof.Machine
end

