-- ==== Sys2Proof/Machine/Run.lean ====
section
/-! DEFINITION. A run of operation words, with the sticky marks (60_exceptions.md R112, R113), and what a host observes of it
(70_reset_and_hazards.md R135, R136). -/

namespace Sys2Proof.Machine

/-- One rising edge with the word `w` on the input ports, as 40_transition.md R85's `Step(cfg, S, w)`: the next state, or the
state with the mark recorded and no register written (60_exceptions.md R113). A state with a mark stays as it is. -/
def tick (w : OpWord) (s : State) : State :=
  match step (s.setInputs (w :: s.inputs)) with
  | .next t => t
  | .fault f => s.markFault f
  | .refused r => s.markRefused r

/-- The state after the edges of a word sequence (70_reset_and_hazards.md R135). -/
def run : List OpWord → State → State
  | [], s => s
  | w :: ws, s => run ws (tick w s)

/-- No mark is set (60_exceptions.md R113). -/
def State.unmarked (s : State) : Bool := s.fault.isNone && s.refused.isNone

/-- What a cycle shows: the outputs, and nothing once a mark is set, since there is no further step
(60_exceptions.md R113; DEDUCED, log 13). -/
def State.shown (s : State) : Option Outputs := if s.unmarked then some s.outputs else none

/-- The output triples of cycles 1 to `n` of a run of `n` words: cycle `k` shows the registers after edge `k - 1`
(70_reset_and_hazards.md R136). -/
def observe : List OpWord → State → List (Option Outputs)
  | [], _ => []
  | w :: ws, s => (tick w s).shown :: observe ws (tick w s)

/-- The final state of a run. A run that carries a mark has none (70_reset_and_hazards.md R135), and neither has one whose
configuration fails `WF`, which is refused before any cycle runs (60_exceptions.md R115), so also where no word is applied. The
run of NO words has the start state as its final state: DESIGN CHOICE, log 15 (R135 defines the final state by the edge of the
last word only). -/
def finalState (ws : List OpWord) (s : State) : Option State :=
  if (run ws s).unmarked && (firstIllFormed s.mem).isNone then some (run ws s) else none

/-- What one cycle adds to the host's step count: `sext_2(step_o)` where `step_valid_o = 1`
(70_reset_and_hazards.md R136). -/
def countOf (o : Option Outputs) : Int :=
  match o with
  | some ⟨some c, some true, _⟩ => sext2 c
  | _ => 0

/-- The host's step count over an observation (70_reset_and_hazards.md R136). -/
def hostCount (obs : List (Option Outputs)) : Int := (obs.map countOf).sum

/-- The pin samples that a word sequence processes, in order (30_encoding.md R72). -/
def samples (ws : List OpWord) : List Pin :=
  ws.filterMap fun w => match decode w with
    | .proc p => some p
    | _ => none

end Sys2Proof.Machine
end

