-- ==== Sys2Proof/Machine/Instances.lean ====
section
/-! DEFINITION. Several instances of the block (60_exceptions.md R121, 20_memory.md R66). -/

namespace Sys2Proof.Machine

/-- The instances, each with its own registers (60_exceptions.md R121). -/
abbrev Instances := List State

/-- A rising edge of the clock of instance `i`, with the word `w` on its input ports; there is no signal between instances
(60_exceptions.md R121). -/
def tickAt : Nat → OpWord → Instances → Instances
  | _, _, [] => []
  | 0, w, s :: rest => tick w s :: rest
  | i + 1, w, s :: rest => s :: tickAt i w rest

end Sys2Proof.Machine
end

