-- ==== Sys2Proof/Machine/Source.lean ====
section
/-! DEFINITION. The source's software encoder, as the spec quotes it: the `process` that one `PROC` cycle corresponds to
(00_scope.md R19, R20 of 10_state.md, 40_transition.md R88, R92). It is the reference that the hardware is compared with, written
apart from the machine's own operations. -/

namespace Sys2Proof.Machine

/-- The source's row index, `encoder.state & 0x0F` (20_memory.md R43). -/
def sourceIndex (st : Byte) : Nat := (st &&& 0x0F).toNat

/-- `table[encoder.state & 0x0F][pin_sample]`: the tables have rows 0 to 7 only (20_memory.md R43). -/
def sourceCell (table : Rom) (st : Byte) (p : Pin) : Option Byte :=
  if sourceIndex st < 8 then some (table (BitVec.ofNat 3 (sourceIndex st)) p) else none

/-- The source's step mapping of `(new_state >> 4) & 0b11`; it names no result for `0b10` (40_transition.md R92,
91_not_in_source.md N6). -/
def sourceStep (b : Byte) : Option Int :=
  if (b >>> 4) &&& 0b11 = 0b01 then some 1
  else if (b >>> 4) &&& 0b11 = 0b11 then some (-1)
  else if (b >>> 4) &&& 0b11 = 0b00 then some 0
  else none

/-- The source's `process`: the new state byte and the step result (00_scope.md R15, 40_transition.md R88). -/
def sourceProcess (table : Rom) (st : Byte) (p : Pin) : Option (Byte × Int) :=
  match sourceCell table st p with
  | none => none
  | some b =>
    match sourceStep b with
    | none => none
    | some d => some (b, d)

/-- Successive calls of `process` by a caller that accumulates the step results (10_state.md R25; 00_scope.md R6): the last
state byte and the caller's count. -/
def sourceRun (table : Rom) : Byte → List Pin → Option (Byte × Int)
  | st, [] => some (st, 0)
  | st, p :: ps =>
    match sourceProcess table st p with
    | none => none
    | some (b, d) =>
      match sourceRun table b ps with
      | none => none
      | some (b', n) => some (b', d + n)

end Sys2Proof.Machine
end

