-- ==== Sys2Proof/Safety.lean ====
section
/-! DEFINITION. What counts as a safe state and a safe run, in the terms that claims use. -/

namespace Sys2Proof.Machine

/-- `state_q` and `variant_q` have been written: a reset cycle has happened (10_state.md R29). -/
def State.written (s : State) : Bool := s.stateQ.isSome && s.variantQ.isSome

/-- The state bound (10_state.md R22; L1.6 of 95_test_vectors.md): a written `state_q` is in rows 0 to 7 with bits 7:6 zero, and
its direction field is one of the three codes (20_memory.md R48). -/
def State.bounded (s : State) : Prop := ∀ b, s.stateQ = some b → cellWf b = true

/-- The registers are written as resets, samples and idle cycles write them (10_state.md R29): `state_q` and `variant_q`
together, `valid_q` no later, and `valid_q` is 1 only after a `PROC`, which needs both. -/
def State.writtenTogether (s : State) : Prop :=
  (s.stateQ.isSome = s.variantQ.isSome) ∧ (s.stateQ.isSome = true → s.validQ.isSome = true) ∧
    (s.validQ = some true → s.stateQ.isSome = true)

/-- A word that asks for the reserved reset (30_encoding.md R79). -/
def isReserved (w : OpWord) : Bool := w.rst && w.variantSel == 0b11#2

/-- A state from which every word but the reserved reset has a next state: no mark, every ROM admitted, a reset behind it
(70_reset_and_hazards.md R125). -/
structure State.Ready (s : State) : Prop where
  unmarked : s.unmarked = true
  admitted : s.mem.admitted
  written : s.written = true
  bounded : s.bounded

end Sys2Proof.Machine
end

