-- ==== Sys2Proof/Certificates/Slice0/Obligations.lean ====
section
/-! DEFINITION. The statements about the block, each from the rules of spec/ that its docstring names. They hold of every
state and every ROM contents that their hypotheses leave; none is about a program. -/

open Sys2Proof Sys2Proof.Machine

/-! ### Reset and the state before it -/

/-- 10_state.md R30, 70_reset_and_hazards.md R124: what `State.reset` holds. That `variantQ` is FULL is the MODEL'S CHOICE (DESIGN
CHOICE, log 3), and so are that `mem` names no ROM cell (log 2) and that `inputs` holds no word (log 4); the rest is the
spec's. -/
def Obligations.ResetStateValues : Prop :=
  State.reset.stateQ = some 0x04 ∧ State.reset.validQ = some false ∧ State.reset.variantQ = some .full ∧
    State.reset.mem = [] ∧ State.reset.inputs = [] ∧ State.reset.unmarked = true ∧
    State.reset.outputs = ⟨some 0b00, some false, some 4⟩

/-- 10_state.md R29: before the first reset no register holds a value; `PROC` faults, `IDLE` writes `valid_q` alone, and an
output that depends on an unwritten register has no value. -/
def Obligations.UnwrittenRegistersHaveNoValue : Prop :=
  (State.unwritten.stateQ = none ∧ State.unwritten.variantQ = none ∧ State.unwritten.validQ = none) ∧
    (∀ (p : Pin) (s : State), s.stateQ = none ∨ s.variantQ = none →
      exec (.proc p) s = .fault (.unwrittenState s.cycle)) ∧
    (∀ s : State, exec .idle s = .next { s with validQ := some false }) ∧
    (∀ s : State, s.validQ = none → s.stepO = none) ∧
    (∀ s : State, s.validQ = some true → s.stateQ = none → s.stepO = none) ∧
    (∀ s : State, s.stateQ = none → s.dbgStateO = none)

/-- 41_control.md R103: a `PROC` before the first reset records the fault, writes no register, and no later word has a
step. -/
def Obligations.EarlySampleFaultsForGood : Prop :=
  ∀ (s : State) (w : OpWord) (p : Pin), s.unmarked = true → s.mem.admitted → s.stateQ = none ∨ s.variantQ = none →
    decode w = .proc p →
    tick w s = { s with fault := some (.unwrittenState s.cycle) } ∧
      ∀ ws, run ws (tick w s) = tick w s ∧ finalState ws (tick w s) = none

/-- 41_control.md R100: the three legal resets, from every state, with the words that stand for them. -/
def Obligations.LegalResetResult : Prop :=
  (∀ w : OpWord, (w &&& 0x38 = 0x08 → decode w = .resetFull) ∧ (w &&& 0x38 = 0x18 → decode w = .resetHalf) ∧
      (w &&& 0x38 = 0x28 → decode w = .resetTri)) ∧
    ∀ s : State,
      exec .resetFull s = .next { s with stateQ := some 0x04, variantQ := some .full, validQ := some false } ∧
      exec .resetHalf s = .next { s with stateQ := some 0x04, variantQ := some .half, validQ := some false } ∧
      exec .resetTri s = .next { s with stateQ := some 0x04, variantQ := some .tri, validQ := some false } ∧
      exec .resetReserved s = .refused (.reservedVariant s.cycle) ∧
      ∀ v t, exec (resetInstr v) s = .next t → t.outputs = ⟨some 0b00, some false, some 4⟩

/-- 41_control.md R101, 30_encoding.md R79: the eight words `0x38` to `0x3F`, and only they, ask for variant code `0b11`; such a
cycle is refused, writes no register, and the mark stays for the rest of the run. -/
def Obligations.ReservedResetIsRefused : Prop :=
  (∀ w : OpWord, decode w = .resetReserved ↔ 0x38 ≤ w.toNat) ∧
    (∀ s : State, exec .resetReserved s = .refused (.reservedVariant s.cycle)) ∧
    ∀ (s : State) (w : OpWord), s.unmarked = true → s.mem.admitted → 0x38 ≤ w.toNat →
      tick w s = { s with refused := some (.reservedVariant s.cycle) } ∧
        ∀ ws, run ws (tick w s) = tick w s ∧ finalState ws (tick w s) = none

/-- 41_control.md R102: a reset discards what was in progress, wins over `en`, and may be held; in the cycle of a reset after a
`PROC` the outputs are still that `PROC`'s, and from the next cycle on they are (00, 0, 4). -/
def Obligations.ResetDiscardsProgress : Prop :=
  ∀ (s : State) (x : BitVec 2) (v : Variant) (en : Bool) (p : Pin), s.unmarked = true → s.mem.admitted →
    variantOfCode x = some v →
    tick (OpWord.ofPorts x true en p) s =
        { s with stateQ := some 0x04, variantQ := some v, validQ := some false, cycle := s.cycle + 1 } ∧
      (∀ (x' : BitVec 2) (v' : Variant) (en' : Bool) (p' : Pin), variantOfCode x' = some v' →
        (tick (OpWord.ofPorts x' true en' p') (tick (OpWord.ofPorts x true en p) s)).stateQ = some 0x04 ∧
        (tick (OpWord.ofPorts x' true en' p') (tick (OpWord.ofPorts x true en p) s)).variantQ = some v' ∧
        (tick (OpWord.ofPorts x' true en' p') (tick (OpWord.ofPorts x true en p) s)).validQ = some false) ∧
      ∀ (w : OpWord) (q : Pin) (b : Byte) (u : Variant), decode w = .proc q → s.stateQ = some b → s.variantQ = some u →
        observe [w, OpWord.ofPorts x true en p] s =
          [some ⟨some (dec ((s.mem.rom u (b.extractLsb' 0 3) q).extractLsb' 4 2)), some true,
              some ((s.mem.rom u (b.extractLsb' 0 3) q).extractLsb' 0 4)⟩,
            some ⟨some 0b00, some false, some 4⟩]

/-- 70_reset_and_hazards.md R125, R124: after one legal reset cycle, from any unmarked state of an admitted configuration (the
unwritten one included), the block is ready. -/
def Obligations.LegalResetMakesReady : Prop :=
  ∀ (s : State) (w : OpWord), s.unmarked = true → s.mem.admitted → w.rst = true → isReserved w = false →
    (tick w s).Ready

/-! ### IDLE -/

/-- 41_control.md R104: `IDLE`, from every state, with the words that stand for it. -/
def Obligations.IdleResult : Prop :=
  (∀ w : OpWord, w &&& 0x0C = 0x00 → decode w = .idle) ∧ encode .idle = 0x00 ∧
    (∀ s : State, exec .idle s = .next { s with validQ := some false }) ∧
    ∀ s : State, s.stateQ = some 0x14 → s.validQ = some true →
      ∃ t, exec .idle s = .next t ∧ t.stateQ = some 0x14 ∧ t.outputs = ⟨some 0b00, some false, some 4⟩

/-- 41_control.md R105: any number of `IDLE` cycles, with whatever `variant_sel` and `pin`, leaves `state_q` and `variant_q`; the
next `PROC` loads what it would have loaded without them; before the first reset they give `step_o` the value 0 and
`dbg_state_o` none. -/
def Obligations.IdleCyclesAreTransparent : Prop :=
  ∀ (ws : List OpWord) (s : State), s.unmarked = true → s.mem.admitted →
    (∀ w ∈ ws, w &&& 0x0C = 0x00) →
    (run ws s).stateQ = s.stateQ ∧ (run ws s).variantQ = s.variantQ ∧ (run ws s).unmarked = true ∧
      (ws ≠ [] → (run ws s).validQ = some false ∧ (run ws s).stepO = some 0b00) ∧
      (s.stateQ = none → (run ws s).dbgStateO = none) ∧
      ∀ (w : OpWord) (p : Pin), decode w = .proc p →
        (tick w (run ws s)).stateQ = (tick w s).stateQ ∧
          (s.written = true → (tick w (run ws s)).outputs = (tick w s).outputs)

/-! ### PROC -/

/-- 40_transition.md R88: `PROC p`, from every state, with the words that stand for it: the whole cell of row `state_q[2:0]`
and column `p` of the variant's ROM is loaded, and its step shows in the next cycle. -/
def Obligations.ProcResult : Prop :=
  (∀ w : OpWord, w &&& 0x0C = 0x04 → decode w = .proc (w.extractLsb' 0 2)) ∧
    (∀ p : Pin, (encode (.proc p)).toNat = 0x04 + p.toNat) ∧
    (∀ (p : Pin) (s : State) (b : Byte) (v : Variant), s.stateQ = some b → s.variantQ = some v →
      ∃ t, exec (.proc p) s = .next t ∧
        t = { s with stateQ := some (s.mem.rom v (b.extractLsb' 0 3) p), validQ := some true } ∧
        t.stepO = some (dec ((s.mem.rom v (b.extractLsb' 0 3) p).extractLsb' 4 2)) ∧ t.stepValidO = some true) ∧
    (∀ (p : Pin) (s : State), s.stateQ = none ∨ s.variantQ = none →
      exec (.proc p) s = .fault (.unwrittenState s.cycle)) ∧
    ∀ s : State, s.stateQ = some 0x07 → s.variantQ = some .full → s.mem.rom .full 7 3 = 0x14 →
      ∃ t, exec (.proc 3) s = .next t ∧ t.stateQ = some 0x14 ∧ t.outputs = ⟨some 0b01, some true, some 4⟩

/-- 10_state.md R23, 40_transition.md R89: bits 7:3 of `state_q` play no part in a `PROC`: two states that differ in them only
load the same cell and show the same outputs. -/
def Obligations.ProcReadsTheRowOnly : Prop :=
  ∀ (p : Pin) (s s' : State) (b b' : Byte), s.stateQ = some b → s'.stateQ = some b' →
    b.extractLsb' 0 3 = b'.extractLsb' 0 3 → s.variantQ = s'.variantQ → s.variantQ.isSome = true →
    (∀ v, s.mem.rom v = s'.mem.rom v) →
    ∃ t t', exec (.proc p) s = .next t ∧ exec (.proc p) s' = .next t' ∧
      t.stateQ = t'.stateQ ∧ t.variantQ = t'.variantQ ∧ t.validQ = t'.validQ ∧ t.outputs = t'.outputs

/-- 40_transition.md R87, 20_memory.md R43: whenever `state_q[3] = 0`, the cell that `PROC` loads is the
source's `table[encoder.state & 0x0F][pin_sample]`. -/
def Obligations.RowIndexAgreesWithSource : Prop :=
  ∀ (m : Memory) (v : Variant) (b : Byte) (p : Pin), b.getLsbD 3 = false →
    sourceCell (m.rom v) b p = some (nextCell m v b p)

/-- 40_transition.md R94: after a `PROC` that loads cell `b` the outputs show the value that the source's `process` returns;
after a legal `RESET` or an `IDLE` they show none. So a host that adds `sext_2(step_o)` in every cycle counts one result
per `PROC`. -/
def Obligations.StepShowsInTheNextCycle : Prop :=
  (∀ (s : State) (w : OpWord) (p : Pin) (b₀ : Byte) (v : Variant), s.unmarked = true → s.mem.admitted →
    s.stateQ = some b₀ → s.variantQ = some v → cellWf b₀ = true → decode w = .proc p →
    ∃ b d c, sourceProcess (s.mem.rom v) b₀ p = some (b, d) ∧ (tick w s).stateQ = some b ∧
      (tick w s).stepValidO = some true ∧ (tick w s).stepO = some c ∧ c.toInt = d ∧
      (b.extractLsb' 4 2 = 0b01#2 → d = 1) ∧ (b.extractLsb' 4 2 = 0b11#2 → d = -1) ∧
      (b.extractLsb' 4 2 = 0b00#2 → d = 0) ∧ countOf (tick w s).shown = d) ∧
    ∀ (s : State) (w : OpWord), s.unmarked = true → s.mem.admitted →
      (w.rst = true ∧ isReserved w = false) ∨ decode w = .idle →
      (tick w s).stepValidO = some false ∧ (tick w s).stepO = some 0b00 ∧ countOf (tick w s).shown = 0

/-! ### Output decoder and outputs -/

/-- 40_transition.md R92: the table of `DEC`, its step values and its hardware form. -/
def Obligations.OutputDecoderTable : Prop :=
  (dec 0b00 = 0b00 ∧ sext2 (dec 0b00) = 0) ∧ (dec 0b01 = 0b01 ∧ sext2 (dec 0b01) = 1) ∧
    (dec 0b11 = 0b11 ∧ sext2 (dec 0b11) = -1) ∧ (dec 0b10 = 0b00 ∧ sext2 (dec 0b10) = 0) ∧
    ∀ d : BitVec 2, dec d = BitVec.ofBool (d.getLsbD 1 && d.getLsbD 0) ++ BitVec.ofBool (d.getLsbD 0)

/-- 40_transition.md R93: the outputs are functions of the registers alone. -/
def Obligations.OutputsFollowTheRegisters : Prop :=
  ∀ s : State,
    (∀ b, s.validQ = some true → s.stateQ = some b → s.stepO = some (dec (b.extractLsb' 4 2))) ∧
    (s.validQ = some false → s.stepO = some 0b00) ∧
    (s.validQ = none ∨ (s.validQ = some true ∧ s.stateQ = none) → s.stepO = none) ∧
    s.stepValidO = s.validQ ∧
    (∀ b, s.stateQ = some b → s.dbgStateO = some (b.extractLsb' 0 4)) ∧ (s.stateQ = none → s.dbgStateO = none) ∧
    ∀ s' : State, s'.stateQ = s.stateQ → s'.variantQ = s.variantQ → s'.validQ = s.validQ → s'.outputs = s.outputs

/-- 20_memory.md R48: a well-formed cell has one of three direction codes. -/
def Obligations.WellFormedCellsHaveThreeDirections : Prop :=
  ∀ R : Rom, romWf R → ∀ s p,
    (R s p).extractLsb' 4 2 = 0b00#2 ∨ (R s p).extractLsb' 4 2 = 0b01#2 ∨ (R s p).extractLsb' 4 2 = 0b11#2

/-! ### Encoding -/

/-- 30_encoding.md R70, R75: a few words written out from the opcode map, ignored bits set as well as clear. -/
def Obligations.DecodesWrittenOutWords : Prop :=
  decode 0b001000 = .resetFull ∧ decode 0b001111 = .resetFull ∧ decode 0b011010 = .resetHalf ∧
    decode 0b101101 = .resetTri ∧ decode 0b111000 = .resetReserved ∧ decode 0b111111 = .resetReserved ∧
    decode 0b000110 = .proc 2 ∧ decode 0b110101 = .proc 1 ∧ decode 0b000000 = .idle ∧ decode 0b110011 = .idle

/-- 30_encoding.md R72: priority of `rst` over `en`; exactly one operation per word. -/
def Obligations.ResetWinsOverEnable : Prop :=
  ∀ w : OpWord,
    (w.getLsbD 3 = true →
      decode w = .resetFull ∨ decode w = .resetHalf ∨ decode w = .resetTri ∨ decode w = .resetReserved) ∧
    (w.getLsbD 3 = false → w.getLsbD 2 = true → decode w = .proc (w.extractLsb' 0 2)) ∧
    (w.getLsbD 3 = false → w.getLsbD 2 = false → decode w = .idle)

/-- 30_encoding.md R75: the six rows of the opcode map, of which exactly one holds of each of the 64 words, and the operation of
each. -/
def Obligations.EveryWordHasOneRow : Prop :=
  opcodeMap = [⟨0x38, 0x08⟩, ⟨0x38, 0x18⟩, ⟨0x38, 0x28⟩, ⟨0x38, 0x38⟩, ⟨0x0C, 0x04⟩, ⟨0x0C, 0x00⟩] ∧
    ∀ w : OpWord,
      opcodeMap.filter (fun r => w &&& r.mask == r.value) = [opcodeRow (decode w)] ∧
      (w &&& 0x38 = 0x08 ↔ decode w = .resetFull) ∧ (w &&& 0x38 = 0x18 ↔ decode w = .resetHalf) ∧
      (w &&& 0x38 = 0x28 ↔ decode w = .resetTri) ∧ (w &&& 0x38 = 0x38 ↔ decode w = .resetReserved) ∧
      (w &&& 0x0C = 0x04 ↔ decode w = .proc (w.extractLsb' 0 2)) ∧ (w &&& 0x0C = 0x00 ↔ decode w = .idle)

/-- 30_encoding.md R77: the canonical words, which an assembler emits, and a decoder that accepts every word of a row. -/
def Obligations.CanonicalWords : Prop :=
  (encode .resetFull = 0x08 ∧ encode .resetHalf = 0x18 ∧ encode .resetTri = 0x28 ∧ encode .idle = 0x00) ∧
    (encode (.proc 0) = 0x04 ∧ encode (.proc 1) = 0x05 ∧ encode (.proc 2) = 0x06 ∧ encode (.proc 3) = 0x07) ∧
    (∀ (line : List Char) (is : List Instr), parseLine line = .ok is → assemble [line] = .ok (is.map encode)) ∧
    (∀ (i : Instr) (w : OpWord), (∀ p, i ≠ .proc p) → (opcodeRow i).holds w = true → decode w = i) ∧
    ∀ (p : Pin) (w : OpWord), (opcodeRow (.proc p)).holds w = true → decode w = .proc (w.extractLsb' 0 2)

/-- Every operation comes back from its word, every operand included (30_encoding.md R73, R75, R77). -/
def Obligations.DecodeEncodeRoundTrip : Prop :=
  ∀ i : Instr, i.wellFormed = true →
    decode (encode i) = i ∧ (opcodeRow i).holds (encode i) = true ∧ decodeTableWord 8 (encode i).toNat = some i ∧
      ∀ j : Instr, encode j = encode i → j = i

/-- Two words decode alike exactly when they differ in ignored bits only (30_encoding.md R70, R72, R80). -/
def Obligations.IgnoredBitsCarryNoMeaning : Prop :=
  ∀ w w' : OpWord, decode w = decode w' ↔
    w.rst = w'.rst ∧ (w.rst = true → w.variantSel = w'.variantSel) ∧
      (w.rst = false → w.en = w'.en ∧ (w.en = true → w.pin = w'.pin))

/-- 30_encoding.md R78: the expansions of the pseudo-instructions, as the words an assembler emits. -/
def Obligations.PseudoInstructionExpansions : Prop :=
  (∀ ps : List Pin, (Pseudo.seq ps).expand.map encode = ps.map fun p => 0x04#6 + p.setWidth 6) ∧
    Pseudo.cwDetent.expand.map encode = [0x06, 0x04, 0x05, 0x07] ∧
    Pseudo.ccwDetent.expand.map encode = [0x05, 0x04, 0x06, 0x07] ∧
    (∀ n, (Pseudo.wait n).expand.map encode = List.replicate n 0x00) ∧
    (Pseudo.switch .full).expand.map encode = [0x08] ∧ (Pseudo.switch .half).expand.map encode = [0x18] ∧
    (Pseudo.switch .tri).expand.map encode = [0x28] ∧
    ∀ n, (Pseudo.wait n).wf = true ↔ 1 ≤ n

/-! ### The ROMs -/

/-- 20_memory.md R42, R44: the addresses of the cells, the flattened map and its hole. -/
def Obligations.RomAddressMap : Prop :=
  ∀ m : Memory,
    (∀ (v : Variant) (s : Row) (p : Pin), (romAddr s p).toNat = 4 * s.toNat + p.toNat ∧
      romRead m v (s ++ p) = m.rom v s p) ∧
    (∀ (s : Row) (p : Pin),
      m.byte (0x00 + 4 * s.toNat + p.toNat) = some (m.rom .full s p) ∧
      m.byte (0x20 + 4 * s.toNat + p.toNat) = some (m.rom .half s p) ∧
      m.byte (0x40 + 4 * s.toNat + p.toNat) = some (m.rom .tri s p)) ∧
    (∀ (a : BitVec 7) (n : Nat), a.toNat < 0x60 → ∃ b, readFlat m a n = .ok b ∧ m.byte a.toNat = some b) ∧
    ∀ (a : BitVec 7) (n : Nat), 0x60 ≤ a.toNat → readFlat m a n = .error (.reservedVariant n) ∧ m.byte a.toNat = none

/-- 20_memory.md R47, 60_exceptions.md R112, R115: the three conditions of `WF`; a configuration is admitted exactly when all
three ROMs meet them, and otherwise refused before any cycle, at its first failing cell. That this is the first by flattened
address is the MODEL'S READING (DEDUCED, log 7). -/
def Obligations.IllFormedRomIsRefused : Prop :=
  (∀ b : Byte, cellWf b = true ↔
      b.getLsbD 3 = false ∧ b.extractLsb' 6 2 = 0b00#2 ∧ b.extractLsb' 4 2 ≠ 0b10#2) ∧
    (∀ R : Rom, romWf R ↔ ∀ s p, cellWf (R s p) = true) ∧
    ∀ s : State, s.unmarked = true →
      (s.mem.admitted → ∀ v r c, step s ≠ .refused (.illFormedRom v r c)) ∧
      (¬ s.mem.admitted → ∃ v r c, step s = .refused (.illFormedRom v r c) ∧ cellWf (s.mem.rom v r c) = false ∧
        ∀ v' r' c', (flatAddr v' (r' ++ c')).toNat < (flatAddr v (r ++ c)).toNat →
          cellWf (s.mem.rom v' r' c') = true)

/-- 00_scope.md R10, 20_memory.md R49: where a run names no cell the ROMs are `WF` and meet every SOURCE constraint. -/
def Obligations.FreeRomsAreAdmitted : Prop :=
  Memory.admitted [] ∧ romSource (Memory.rom [] .full) (Memory.rom [] .half) (Memory.rom [] .tri)

/-- 20_memory.md R40, R46, R61: no operation word writes a ROM, in a run of any length. -/
def Obligations.RomsAreNeverWritten : Prop :=
  ∀ (ws : List OpWord) (s : State), (run ws s).mem = s.mem ∧ ∀ a, (run ws s).mem.byte a = s.mem.byte a

/-- 20_memory.md R50, FULL_SEQ_CW: on Full-Step, from START, the samples 2, 0, 1, 3 give the steps 0, 0, 0, +1 and end in
START. -/
def Obligations.FullStepClockwiseDetent : Prop :=
  ∀ (s : State) (b : Byte), s.unmarked = true → s.mem.admitted → s.variantQ = some .full → s.stateQ = some b →
    b.extractLsb' 0 3 = 4#3 → fullSeqCw (s.mem.rom .full) →
    (observe [0x06, 0x04, 0x05, 0x07] s).map countOf = [0, 0, 0, 1] ∧
      (run [0x06, 0x04, 0x05, 0x07] s).dbgStateO = some 4 ∧ (run [0x06, 0x04, 0x05, 0x07] s).unmarked = true

/-- 20_memory.md R51, FULL_SEQ_CCW: on Full-Step, from START, the samples 1, 0, 2, 3 give the steps 0, 0, 0, -1 and end in
START. -/
def Obligations.FullStepCounterClockwiseDetent : Prop :=
  ∀ (s : State) (b : Byte), s.unmarked = true → s.mem.admitted → s.variantQ = some .full → s.stateQ = some b →
    b.extractLsb' 0 3 = 4#3 → fullSeqCcw (s.mem.rom .full) →
    (observe [0x05, 0x04, 0x06, 0x07] s).map countOf = [0, 0, 0, -1] ∧
      (run [0x05, 0x04, 0x06, 0x07] s).dbgStateO = some 4 ∧ (run [0x05, 0x04, 0x06, 0x07] s).unmarked = true

/-- 20_memory.md R52, FULL_FIRE: on Full-Step a `PROC` gives a step only from the final sub-state of that direction, and
then enters START. -/
def Obligations.FullStepFiresFromFinalRows : Prop :=
  ∀ (s : State) (b : Byte) (p : Pin), s.variantQ = some .full → s.stateQ = some b → fullFire (s.mem.rom .full) →
    ∃ t c, exec (.proc p) s = .next t ∧ t.stateQ = some c ∧
      (c.extractLsb' 4 2 ≠ 0b00#2 →
        c.extractLsb' 0 4 = 4#4 ∧ t.dbgStateO = some 4 ∧
          ((b.extractLsb' 0 3 = 7#3 ∧ c.extractLsb' 4 2 = 0b01#2 ∧ t.stepO = some 0b01) ∨
            (b.extractLsb' 0 3 = 1#3 ∧ c.extractLsb' 4 2 = 0b11#2 ∧ t.stepO = some 0b11))) ∧
      (b.extractLsb' 0 3 ≠ 7#3 → b.extractLsb' 0 3 ≠ 1#3 → t.stepO = some 0b00)

/-- 20_memory.md R53, FULL_FINAL_CELLS. -/
def Obligations.FullStepFinalCells : Prop :=
  ∀ F : Rom, romWf F → fullSeqCw F → fullSeqCcw F → fullFire F →
    nextField (follow F (follow F (F 4 2) 0) 1) = 7 ∧ F 7 3 = 0x14 ∧
      nextField (follow F (follow F (F 4 1) 0) 2) = 1 ∧ F 1 3 = 0x34

/-- 20_memory.md R54 (READING FULL_NOISE, D13) with R52: bounce at the detent of Full-Step, the sample 3 given twice, is
processed twice and adds no step, and neither 3 nor 0, each processed with step 0, leads to a BEGIN state. -/
def Obligations.BounceAtTheDetentAddsNothing : Prop :=
  ∀ (s : State) (b : Byte), s.unmarked = true → s.mem.admitted → s.variantQ = some .full → s.stateQ = some b →
    b.extractLsb' 0 3 = 4#3 → fullFire (s.mem.rom .full) → fullNoise (s.mem.rom .full) →
    hostCount (observe [0x07, 0x07] s) = 0 ∧
      (observe [0x07, 0x07] s).map countOf = [0, 0] ∧
      (run [0x07, 0x07] s).unmarked = true ∧ (run [0x07, 0x07] s).stepValidO = some true ∧
      (tick 0x07 s).stateQ = some (s.mem.rom .full 4 3) ∧ (tick 0x07 s).stepValidO = some true ∧
      (tick 0x04 s).unmarked = true ∧ (tick 0x04 s).stateQ = some (s.mem.rom .full 4 0) ∧
      (tick 0x04 s).stepValidO = some true ∧ (tick 0x04 s).stepO = some 0b00 ∧
      (tick 0x07 s).dbgStateO ≠ some 3 ∧ (tick 0x07 s).dbgStateO ≠ some 5 ∧
      (tick 0x04 s).dbgStateO ≠ some 3 ∧ (tick 0x04 s).dbgStateO ≠ some 5

/-- 20_memory.md R55 (READING FULL_PATH, D10): the states that the two sequences pass through. -/
def Obligations.FullStepPathOfBothDetents : Prop :=
  ∀ (s : State) (b : Byte), s.unmarked = true → s.mem.admitted → s.variantQ = some .full → s.stateQ = some b →
    b.extractLsb' 0 3 = 4#3 → fullPath (s.mem.rom .full) →
    observe [0x06, 0x04, 0x05, 0x07] s =
        [some ⟨some 0, some true, some 5⟩, some ⟨some 0, some true, some 6⟩, some ⟨some 0, some true, some 7⟩,
          some ⟨some 0b01, some true, some 4⟩] ∧
      observe [0x05, 0x04, 0x06, 0x07] s =
        [some ⟨some 0, some true, some 3⟩, some ⟨some 0, some true, some 2⟩, some ⟨some 0, some true, some 1⟩,
          some ⟨some 0b11, some true, some 4⟩]

/-- 20_memory.md R56, HALF_ASYM. -/
def Obligations.HalfStepAsymmetry : Prop :=
  ∀ (s : State) (b : Byte), s.variantQ = some .half → s.stateQ = some b → halfAsym (s.mem.rom .half) →
    (b.extractLsb' 0 3 = 2#3 → ∃ t, exec (.proc 2) s = .next t ∧ t.dbgStateO = some 7) ∧
      (b.extractLsb' 0 3 = 6#3 → ∃ t, exec (.proc 1) s = .next t ∧ t.dbgStateO = some 1)

/-- 20_memory.md R58, TRI_ROWS: from rows 2 and 6 of Tristate every sample leads to INVALID; under the READING D11 the
whole byte is 0 and no step is given. -/
def Obligations.TristateInvalidRows : Prop :=
  ∀ (s : State) (b : Byte) (p : Pin), s.variantQ = some .tri → s.stateQ = some b →
    b.extractLsb' 0 3 = 2#3 ∨ b.extractLsb' 0 3 = 6#3 →
    (triRows (s.mem.rom .tri) → ∃ t, exec (.proc p) s = .next t ∧ t.dbgStateO = some 0) ∧
      (triRowsWhole (s.mem.rom .tri) →
        ∃ t, exec (.proc p) s = .next t ∧ t.stateQ = some 0x00 ∧ t.stepO = some 0b00)

/-- 20_memory.md R59, TRI_PIN1: on Tristate the sample 1 gives step 0 from every row. -/
def Obligations.TristatePinOneGivesNoStep : Prop :=
  ∀ (s : State) (b : Byte), s.variantQ = some .tri → s.stateQ = some b → triPin1 (s.mem.rom .tri) →
    ∃ t, exec (.proc 1) s = .next t ∧ t.stateQ = some (s.mem.rom .tri (b.extractLsb' 0 3) 1) ∧
      t.stepValidO = some true ∧ t.stepO = some 0b00

/-! ### Frames -/

/-- The resets write the three registers and nothing else (41_control.md R100, 70_reset_and_hazards.md R124; 20_memory.md
R40). -/
def Obligations.FrameOfLegalResets : Prop :=
  ∀ (i : Instr) (s t : State), i = .resetFull ∨ i = .resetHalf ∨ i = .resetTri → exec i s = .next t →
    t.mem = s.mem ∧ (∀ a, t.mem.byte a = s.mem.byte a) ∧ (∀ v, t.mem.rom v = s.mem.rom v) ∧
      t.inputs = s.inputs ∧ t.cycle = s.cycle ∧ t.fault = s.fault ∧ t.refused = s.refused

/-- `PROC` writes `state_q` and `valid_q` and nothing else: it stores to no byte of memory (40_transition.md R88, R97;
20_memory.md R40). -/
def Obligations.FrameOfProc : Prop :=
  ∀ (p : Pin) (s t : State), exec (.proc p) s = .next t →
    t.variantQ = s.variantQ ∧ t.mem = s.mem ∧ (∀ a, t.mem.byte a = s.mem.byte a) ∧
      (∀ v, t.mem.rom v = s.mem.rom v) ∧
      t.inputs = s.inputs ∧ t.cycle = s.cycle ∧ t.fault = s.fault ∧ t.refused = s.refused

/-- `IDLE` writes `valid_q` and nothing else: `last_dir` keeps its value (41_control.md R104; 10_state.md R28). -/
def Obligations.FrameOfIdle : Prop :=
  ∀ s t : State, exec .idle s = .next t →
    t.stateQ = s.stateQ ∧ t.variantQ = s.variantQ ∧ t.mem = s.mem ∧ (∀ a, t.mem.byte a = s.mem.byte a) ∧
      (∀ v, t.mem.rom v = s.mem.rom v) ∧
      t.inputs = s.inputs ∧ t.cycle = s.cycle ∧ t.fault = s.fault ∧ t.refused = s.refused

/-! ### The cycle -/

/-- A step runs the decoded operation (40_transition.md R85): it takes the first word of the host, runs `exec` of what the
word decodes to, and counts the cycle. -/
def Obligations.StepRunsTheDecodedOperation : Prop :=
  ∀ (s : State) (w : OpWord) (ws : List OpWord), s.unmarked = true → s.mem.admitted → s.inputs = w :: ws →
    (decode w).wellFormed = true ∧
    (∀ t, exec (decode w) { s with inputs := ws } = .next t → step s = .next { t with cycle := t.cycle + 1 }) ∧
      (∀ f, exec (decode w) { s with inputs := ws } = .fault f → step s = .fault f) ∧
      (∀ r, exec (decode w) { s with inputs := ws } = .refused r → step s = .refused r)

/-- Where the host has driven no further word a step ends the run (70_reset_and_hazards.md R135). That this is a refusal
of its own name is the MODEL'S CHOICE (DESIGN CHOICE, log 4). -/
def Obligations.NoWordEndsTheRun : Prop :=
  ∀ s : State, s.unmarked = true → s.mem.admitted → s.inputs = [] → step s = .refused .noOperationWord

/-- 40_transition.md R85: the whole of one cycle, for every word and every state of an admitted configuration. -/
def Obligations.CycleDispatch : Prop :=
  ∀ (w : OpWord) (s : State),
    (s.unmarked = false → tick w s = s) ∧
    (s.unmarked = true → s.mem.admitted →
      (w.rst = true →
        (∀ v, variantOfCode w.variantSel = some v → tick w s =
          { s with stateQ := some 0x04, variantQ := some v, validQ := some false, cycle := s.cycle + 1 }) ∧
        (w.variantSel = 0b11 → tick w s = { s with refused := some (.reservedVariant s.cycle) })) ∧
      (w.rst = false → w.en = true →
        (∀ b v, s.stateQ = some b → s.variantQ = some v → tick w s =
          { s with stateQ := some (s.mem.rom v (b.extractLsb' 0 3) w.pin), validQ := some true,
                   cycle := s.cycle + 1 }) ∧
        (s.stateQ = none ∨ s.variantQ = none →
          tick w s = { s with fault := some (.unwrittenState s.cycle) })) ∧
      (w.rst = false → w.en = false → tick w s = { s with validQ := some false, cycle := s.cycle + 1 }))

/-- 60_exceptions.md R113: a state with either mark has no further step, no word clears the mark, `RESET` included, and no run
from it has a final state. That its cycles show nothing in an observation is the MODEL'S READING (DEDUCED, log 13). -/
def Obligations.MarksAreSticky : Prop :=
  ∀ s : State, s.unmarked = false →
    (∀ t, step s ≠ .next t) ∧ ∀ ws, run ws s = s ∧ finalState ws s = none ∧ ∀ o ∈ observe ws s, o = none

/-- 10_state.md R25: every cycle writes `valid_q` with `(rst = 0) and (en = 1)`. -/
def Obligations.ValidFollowsTheStrobe : Prop :=
  ∀ (s t : State) (w : OpWord) (ws : List OpWord), s.inputs = w :: ws → step s = .next t →
    t.validQ = some (!w.getLsbD 3 && w.getLsbD 2)

/-- 10_state.md R24, 70_reset_and_hazards.md R128: `variant_sel` is read in a reset cycle only, `variant_q` changes there only, and
that cycle also restarts the state at START. -/
def Obligations.VariantChangesOnlyAtReset : Prop :=
  (∀ w w' : OpWord, w.rst = false → w &&& 0x0F = w' &&& 0x0F → decode w = decode w') ∧
    ∀ (s t : State) (w : OpWord) (ws : List OpWord), s.inputs = w :: ws → step s = .next t →
      (w.rst = false → t.variantQ = s.variantQ) ∧
        (w.rst = true → t.variantQ = variantOfCode (w.extractLsb' 4 2) ∧ t.variantQ.isSome = true ∧
          t.stateQ = some 0x04)

/-- 40_transition.md R90, 60_exceptions.md R111: once ready, every word but the reserved reset has a next state, which is
ready again. -/
def Obligations.EveryLegalWordHasANextState : Prop :=
  ∀ (s : State) (w : OpWord), s.Ready → isReserved w = false →
    ∃ t, step { s with inputs := w :: s.inputs } = .next t ∧ t.Ready ∧ t.inputs = s.inputs ∧ t.cycle = s.cycle + 1

/-! ### Invariants and runs -/

/-- 10_state.md R22: no step leaves the state bound, from any state within it (reachable or not). -/
def Obligations.StepKeepsTheStateBound : Prop :=
  ∀ s t : State, s.bounded → step s = .next t → t.bounded

/-- 10_state.md R29: no step breaks the way the registers come to be written. -/
def Obligations.RegistersStayWrittenTogether : Prop :=
  ∀ s t : State, s.writtenTogether → step s = .next t → t.writtenTogether

/-- Both invariants hold at reset and before it (10_state.md R22, R29, R30). -/
def Obligations.InvariantsHoldAtReset : Prop :=
  State.reset.bounded ∧ State.reset.writtenTogether ∧ State.reset.Ready ∧
    State.unwritten.bounded ∧ State.unwritten.writtenTogether

/-- 10_state.md R22: in every state reached from a reset, whatever the words, `state_q[3:0]` is in 0 to 7 and `state_q[7:6]` is
0. -/
def Obligations.StateBoundAfterReset : Prop :=
  ∀ (s : State) (w : OpWord) (ws : List OpWord) (b : Byte), s.unmarked = true → s.mem.admitted → w.rst = true →
    isReserved w = false → (run ws (tick w s)).stateQ = some b →
    (b.extractLsb' 0 4).toNat ≤ 7 ∧ b.getLsbD 3 = false ∧ b.extractLsb' 6 2 = 0b00#2

/-- 60_exceptions.md R110, 70_reset_and_hazards.md R135: from a ready state, every run of words without the reserved reset has a
final state, which is ready, and shows outputs in each of its cycles. For the run of no words this rests on the MODEL'S CHOICE
(DESIGN CHOICE, log 15). -/
def Obligations.LegalRunsHaveFinalStates : Prop :=
  ∀ (s : State) (ws : List OpWord), s.Ready → (∀ w ∈ ws, isReserved w = false) →
    ∃ t, finalState ws s = some t ∧ t.Ready ∧ t.cycle = s.cycle + ws.length ∧ t.mem = s.mem ∧
      (observe ws s).length = ws.length ∧ ∀ o ∈ observe ws s, o ≠ none

/-- 40_transition.md R91: two runs of the same words from the same registers, with the same ROM contents, give the same
observation and the same registers, whatever the cycle count and however the ROM contents are named. -/
def Obligations.RunsAreDeterministic : Prop :=
  ∀ (ws : List OpWord) (s s' : State), s.unmarked = true → s'.unmarked = true → s.stateQ = s'.stateQ →
    s.variantQ = s'.variantQ → s.validQ = s'.validQ → (∀ v, s.mem.rom v = s'.mem.rom v) →
    observe ws s = observe ws s' ∧ (run ws s).stateQ = (run ws s').stateQ ∧
      (run ws s).variantQ = (run ws s').variantQ ∧ (run ws s).validQ = (run ws s').validQ

/-- 00_scope.md R19, 40_transition.md R94, 70_reset_and_hazards.md R136: over any words without a reset, `PROC`s and `IDLE`s mixed as they
may be, the block holds the state byte that the source's successive `process` calls leave, and the host's count is the sum
of the step results they return. -/
def Obligations.RunCountsTheSourceSteps : Prop :=
  ∀ (ws : List OpWord) (s : State) (b : Byte) (v : Variant), s.unmarked = true → s.mem.admitted →
    s.stateQ = some b → s.variantQ = some v → cellWf b = true → (∀ w ∈ ws, w.rst = false) →
    ∃ b' n, sourceRun (s.mem.rom v) b (samples ws) = some (b', n) ∧ (run ws s).stateQ = some b' ∧
      hostCount (observe ws s) = n ∧ (run ws s).unmarked = true

/-- 60_exceptions.md R121: a clock edge of one instance changes no other, and what it does to its own does not depend on the
others. -/
def Obligations.InstancesAreIndependent : Prop :=
  ∀ (i : Nat) (w : OpWord) (sys : Instances),
    (tickAt i w sys).length = sys.length ∧
      (∀ j, j ≠ i → (tickAt i w sys)[j]? = sys[j]?) ∧ (tickAt i w sys)[i]? = sys[i]?.map (tick w)
end

