-- ==== Sys2Proof/Laws/Memory.lean ====
section
/-! SUPPORT. The laws of the ROM reads, of the canonical form and of the check of a configuration. -/

namespace Sys2Proof.Machine

/-! ### The free configuration -/

/-- Where a run names no cell, every ROM is `WF`. -/
theorem configRom_wf (v : Variant) : romWf (Config.rom v) := by
  cases v
  · exact Config.roms.full_wf
  · exact Config.roms.half_wf
  · exact Config.roms.tri_wf

/-! ### Addresses -/

@[simp] theorem addrRow_romAddr (s : Row) (p : Pin) : addrRow (romAddr s p) = s := by
  revert s p; decide

@[simp] theorem addrPin_romAddr (s : Row) (p : Pin) : addrPin (romAddr s p) = p := by
  revert s p; decide

@[simp] theorem romAddr_addr (a : BitVec 5) : romAddr (addrRow a) (addrPin a) = a := by
  revert a; decide

theorem flatAddr_lt (v : Variant) (a : BitVec 5) : (flatAddr v a).toNat < 0x60 := by
  revert a; cases v <;> decide

theorem unlisted_flatAddr (v : Variant) (a : BitVec 5) :
    unlisted (flatAddr v a).toNat = some (Config.rom v (addrRow a) (addrPin a)) := by
  have h : variantOfCode (BitVec.ofNat 2 ((flatAddr v a).toNat / 32)) = some v ∧
      (flatAddr v a).toNat < 0x60 ∧
      BitVec.ofNat 3 ((flatAddr v a).toNat / 4) = addrRow a ∧
      BitVec.ofNat 2 (flatAddr v a).toNat = addrPin a := by
    revert a; cases v <;> decide
  simp only [unlisted, h.1, h.2.1, h.2.2.1, h.2.2.2, if_true]

/-- Only the addresses of cells have a byte. -/
theorem unlisted_eq_none_iff (a : Nat) : unlisted a = none ↔ 0x60 ≤ a := by
  constructor
  · intro hn
    by_contra hlt
    have h96 : a < 0x60 := by omega
    have hv : ∃ v, variantOfCode (BitVec.ofNat 2 (a / 32)) = some v := by
      revert h96; clear hn hlt; revert a
      have : ∀ x : Fin 96, ∃ v, variantOfCode (BitVec.ofNat 2 (x.val / 32)) = some v := by
        intro x
        have hx : x.val / 32 < 3 := by omega
        generalize x.val / 32 = y at hx
        match y, hx with
        | 0, _ => exact ⟨.full, rfl⟩
        | 1, _ => exact ⟨.half, rfl⟩
        | 2, _ => exact ⟨.tri, rfl⟩
      exact fun a h => this ⟨a, h⟩
    obtain ⟨v, hv⟩ := hv
    simp [unlisted, hv, h96] at hn
  · intro hge
    have hlt : ¬ a < 0x60 := by omega
    unfold unlisted
    split <;> simp [hlt]

/-! ### Reads -/

/-- A read of a ROM is the byte at the flattened address. -/
theorem byte_flatAddr (m : Memory) (v : Variant) (a : BitVec 5) :
    m.byte (flatAddr v a).toNat = some (romRead m v a) := by
  simp only [Memory.byte, romRead, unlisted_flatAddr]
  cases Memory.listed m (flatAddr v a).toNat <;> rfl

/-- Where the run names no cell, the ROM is the configuration's. -/
theorem rom_of_listed_none (m : Memory) (v : Variant) (s : Row) (p : Pin)
    (h : Memory.listed m (flatAddr v (romAddr s p)).toNat = none) : m.rom v s p = Config.rom v s p := by
  simp [Memory.rom, romRead, h]

theorem rom_of_listed_some (m : Memory) (v : Variant) (s : Row) (p : Pin) (b : Byte)
    (h : Memory.listed m (flatAddr v (romAddr s p)).toNat = some b) : m.rom v s p = b := by
  simp [Memory.rom, romRead, h]

@[simp] theorem rom_nil (v : Variant) : Memory.rom [] v = Config.rom v := by
  funext s p
  exact rom_of_listed_none [] v s p rfl

/-- What `PROC` loads, in the terms of the tables. -/
theorem nextCell_eq_rom (m : Memory) (v : Variant) (s : Byte) (p : Pin) :
    nextCell m v s p = m.rom v (rowField s) p := rfl

/-! ### The check of a configuration -/

theorem mem_allCells (c : Variant × Row × Pin) : c ∈ allCells := by
  obtain ⟨v, s, p⟩ := c
  revert s p
  cases v <;> decide

/-- A cell passes the check exactly when it is well-formed as read. -/
theorem failsWf_eq_false_iff (m : Memory) (v : Variant) (s : Row) (p : Pin) :
    failsWf m (v, s, p) = false ↔ cellWf (m.rom v s p) = true := by
  cases h : Memory.listed m (flatAddr v (romAddr s p)).toNat with
  | none => simp [failsWf, h, rom_of_listed_none m v s p h, configRom_wf v s p]
  | some b => simp [failsWf, h, rom_of_listed_some m v s p b h]

/-- No ill-formed cell is found exactly when all three ROMs are `WF` (20_memory.md R47). -/
theorem firstIllFormed_eq_none_iff (m : Memory) : firstIllFormed m = none ↔ m.admitted := by
  constructor
  · intro h v s p
    have := List.find?_eq_none.mp h (v, s, p) (mem_allCells _)
    exact (failsWf_eq_false_iff m v s p).mp (by simpa using this)
  · intro h
    refine List.find?_eq_none.mpr ?_
    rintro ⟨v, s, p⟩ -
    simpa using (failsWf_eq_false_iff m v s p).mpr (h v s p)

/-- The cell that the check names is ill-formed. -/
theorem firstIllFormed_some (m : Memory) (v : Variant) (s : Row) (p : Pin)
    (h : firstIllFormed m = some (v, s, p)) : cellWf (m.rom v s p) = false := by
  have hf := List.find?_some h
  cases hc : cellWf (m.rom v s p) with
  | false => rfl
  | true => rw [(failsWf_eq_false_iff m v s p).mpr hc] at hf; cases hf

/-- With nothing listed the configuration is admitted. -/
theorem admitted_nil : Memory.admitted [] := by
  intro v s p
  rw [rom_nil]
  exact configRom_wf v s p

/-- What `PROC` loads from an admitted configuration is a well-formed cell. -/
theorem nextCell_wf {m : Memory} (h : m.admitted) (v : Variant) (s : Byte) (p : Pin) :
    cellWf (nextCell m v s p) = true := h v (rowField s) p

/-! ### Naming a cell -/

theorem listed_insertCell_same (m : Memory) (a : Nat) (b : Byte) :
    Memory.listed (Memory.insertCell a b m) a = some b := by
  induction m with
  | nil => simp [Memory.insertCell, Memory.listed]
  | cons c m ih =>
    obtain ⟨k, c⟩ := c
    unfold Memory.insertCell
    split
    · simp [Memory.listed]
    · split
      · simp [Memory.listed]
      · rename_i h
        simp [Memory.listed, Ne.symm h, ih]

theorem listed_insertCell_other (m : Memory) (a a' : Nat) (b : Byte) (h : a' ≠ a) :
    Memory.listed (Memory.insertCell a b m) a' = Memory.listed m a' := by
  induction m with
  | nil => simp [Memory.insertCell, Memory.listed, Ne.symm h]
  | cons c m ih =>
    obtain ⟨k, c⟩ := c
    unfold Memory.insertCell
    split
    · simp [Memory.listed, Ne.symm h]
    · split
      · rename_i hk
        simp [Memory.listed, ← hk, Ne.symm h]
      · simp only [Memory.listed, ih]

theorem listed_filter_same (m : Memory) (a : Nat) :
    Memory.listed (m.filter (fun c => c.1 ≠ a)) a = none := by
  induction m with
  | nil => rfl
  | cons c m ih =>
    obtain ⟨k, c⟩ := c
    by_cases hk : k = a
    · simpa [List.filter, hk] using ih
    · simpa [List.filter, hk, Memory.listed] using ih

theorem listed_filter_other (m : Memory) (a a' : Nat) (h : a' ≠ a) :
    Memory.listed (m.filter (fun c => c.1 ≠ a)) a' = Memory.listed m a' := by
  induction m with
  | nil => rfl
  | cons c m ih =>
    obtain ⟨k, c⟩ := c
    by_cases hk : k = a
    · subst hk
      simpa [List.filter, Memory.listed, Ne.symm h] using ih
    · by_cases hk' : k = a'
      · simp [List.filter, Memory.listed, hk', h]
      · simpa [List.filter, hk, Memory.listed, hk'] using ih

/-- A cell that is named reads as the byte it was given. -/
theorem byte_setCell_same (m : Memory) (a : Nat) (b : Byte) (h : unlisted a ≠ none) :
    (m.setCell a b).byte a = some b := by
  obtain ⟨d, hd⟩ := Option.ne_none_iff_exists'.mp h
  unfold Memory.setCell
  rw [if_neg h]
  split
  · rename_i hb
    simp only [Memory.byte, hb, listed_filter_same, Option.getD_none]
  · simp only [Memory.byte, hd, listed_insertCell_same, Option.getD_some]

/-- Naming a cell leaves every other cell alone. -/
theorem byte_setCell_other (m : Memory) (a a' : Nat) (b : Byte) (h : a' ≠ a) :
    (m.setCell a b).byte a' = m.byte a' := by
  unfold Memory.setCell
  split
  · rfl
  · split
    · simp only [Memory.byte, listed_filter_other m a a' h]
    · simp only [Memory.byte, listed_insertCell_other m a a' b h]

theorem mem_insertCell {m : Memory} {a : Nat} {b : Byte} {c : Host.Cell}
    (h : c ∈ Memory.insertCell a b m) : c = (a, b) ∨ c ∈ m := by
  induction m with
  | nil => simpa [Memory.insertCell] using h
  | cons d m ih =>
    obtain ⟨k, d⟩ := d
    unfold Memory.insertCell at h
    split at h
    · simpa using h
    · split at h
      · rcases List.mem_cons.mp h with h | h
        · exact .inl h
        · exact .inr (List.mem_cons_of_mem _ h)
      · rcases List.mem_cons.mp h with h | h
        · exact .inr (by simp [h])
        · exact (ih h).imp id (List.mem_cons_of_mem _)

theorem pairwise_insertCell (m : Memory) (a : Nat) (b : Byte)
    (h : m.Pairwise (fun x y => x.1 < y.1)) :
    (Memory.insertCell a b m).Pairwise (fun x y => x.1 < y.1) := by
  induction m with
  | nil => simp [Memory.insertCell]
  | cons d m ih =>
    obtain ⟨k, d⟩ := d
    obtain ⟨hd, hm⟩ := List.pairwise_cons.mp h
    unfold Memory.insertCell
    split
    · rename_i hak
      refine List.pairwise_cons.mpr ⟨fun c hc => ?_, h⟩
      rcases List.mem_cons.mp hc with rfl | hc
      · exact hak
      · exact Nat.lt_trans hak (hd c hc)
    · split
      · rename_i hak
        exact List.pairwise_cons.mpr ⟨fun c hc => hak ▸ hd c hc, hm⟩
      · rename_i h1 h2
        refine List.pairwise_cons.mpr ⟨fun c hc => ?_, ih hm⟩
        rcases mem_insertCell hc with rfl | hc
        · exact Nat.lt_of_le_of_ne (Nat.le_of_not_lt h1) (Ne.symm h2)
        · exact hd c hc

/-- Naming a cell keeps the canonical form; it is the only operation that gives a new memory. -/
theorem wf_setCell (m : Memory) (a : Nat) (b : Byte) (h : m.wf) : (m.setCell a b).wf := by
  obtain ⟨hp, hc⟩ := h
  unfold Memory.setCell
  split
  · exact ⟨hp, hc⟩
  · rename_i ha
    split
    · exact ⟨hp.filter _, fun c hm => hc c (List.mem_filter.mp hm).1⟩
    · rename_i hb
      refine ⟨pairwise_insertCell m a b hp, fun c hm => ?_⟩
      rcases mem_insertCell hm with rfl | hm
      · refine ⟨?_, hb⟩
        by_contra hge
        apply ha
        unfold unlisted
        split <;> simp [hge]
      · exact hc c hm

/-- Reset lists no cell, which is canonical. -/
theorem wf_nil : Memory.wf [] := ⟨List.Pairwise.nil, fun _ h => by cases h⟩

end Sys2Proof.Machine
end

