-- ==== Sys2Proof/Laws/PerInstr.lean ====
section
/-! SUPPORT. A statement per operation about its encoding, one lemma per constructor. -/

namespace Sys2Proof.Laws.CanonicalWord

/-- The canonical word of the operation lies in its row of the opcode map (30_encoding.md R75), and of its ignored bits
only those that its operand sets are 1 (R77). -/
def Statement (i : Instr) : Prop :=
  (opcodeRow i).holds (encode i) = true ∧
    (encode i &&& ~~~(opcodeRow i).mask = 0 ∨ ∃ p, i = .proc p ∧ encode i &&& ~~~(opcodeRow i).mask = p.setWidth 6)

theorem resetFull : Statement .resetFull := by
  exact ⟨rfl, .inl rfl⟩

theorem resetHalf : Statement .resetHalf := by
  exact ⟨rfl, .inl rfl⟩

theorem resetTri : Statement .resetTri := by
  exact ⟨rfl, .inl rfl⟩

theorem resetReserved : Statement .resetReserved := by
  exact ⟨rfl, .inl rfl⟩

theorem proc (p : Pin) : Statement (.proc p) := by
  have h : ∀ p : Pin, (opcodeRow (.proc p)).holds (encode (.proc p)) = true ∧
      encode (.proc p) &&& ~~~(opcodeRow (.proc p)).mask = p.setWidth 6 := by decide
  exact ⟨(h p).1, .inr ⟨p, rfl, (h p).2⟩⟩

theorem idle : Statement .idle := by
  exact ⟨rfl, .inl rfl⟩

end Sys2Proof.Laws.CanonicalWord
end

