-- ==== Sys2Proof/Laws/State.lean ====
section
/-! SUPPORT. One lemma per field of State and per update of it, each true by rfl. -/

namespace Sys2Proof.Machine

@[simp] theorem State.setStateQ_stateQ (s : State) (b : Byte) : (s.setStateQ b).stateQ = some b := rfl
@[simp] theorem State.setStateQ_variantQ (s : State) (b : Byte) : (s.setStateQ b).variantQ = s.variantQ := rfl
@[simp] theorem State.setStateQ_validQ (s : State) (b : Byte) : (s.setStateQ b).validQ = s.validQ := rfl
@[simp] theorem State.setStateQ_mem (s : State) (b : Byte) : (s.setStateQ b).mem = s.mem := rfl
@[simp] theorem State.setStateQ_inputs (s : State) (b : Byte) : (s.setStateQ b).inputs = s.inputs := rfl
@[simp] theorem State.setStateQ_cycle (s : State) (b : Byte) : (s.setStateQ b).cycle = s.cycle := rfl
@[simp] theorem State.setStateQ_fault (s : State) (b : Byte) : (s.setStateQ b).fault = s.fault := rfl
@[simp] theorem State.setStateQ_refused (s : State) (b : Byte) : (s.setStateQ b).refused = s.refused := rfl

@[simp] theorem State.setVariantQ_stateQ (s : State) (v : Variant) : (s.setVariantQ v).stateQ = s.stateQ := rfl
@[simp] theorem State.setVariantQ_variantQ (s : State) (v : Variant) : (s.setVariantQ v).variantQ = some v := rfl
@[simp] theorem State.setVariantQ_validQ (s : State) (v : Variant) : (s.setVariantQ v).validQ = s.validQ := rfl
@[simp] theorem State.setVariantQ_mem (s : State) (v : Variant) : (s.setVariantQ v).mem = s.mem := rfl
@[simp] theorem State.setVariantQ_inputs (s : State) (v : Variant) : (s.setVariantQ v).inputs = s.inputs := rfl
@[simp] theorem State.setVariantQ_cycle (s : State) (v : Variant) : (s.setVariantQ v).cycle = s.cycle := rfl
@[simp] theorem State.setVariantQ_fault (s : State) (v : Variant) : (s.setVariantQ v).fault = s.fault := rfl
@[simp] theorem State.setVariantQ_refused (s : State) (v : Variant) : (s.setVariantQ v).refused = s.refused := rfl

@[simp] theorem State.setValidQ_stateQ (s : State) (x : Bool) : (s.setValidQ x).stateQ = s.stateQ := rfl
@[simp] theorem State.setValidQ_variantQ (s : State) (x : Bool) : (s.setValidQ x).variantQ = s.variantQ := rfl
@[simp] theorem State.setValidQ_validQ (s : State) (x : Bool) : (s.setValidQ x).validQ = some x := rfl
@[simp] theorem State.setValidQ_mem (s : State) (x : Bool) : (s.setValidQ x).mem = s.mem := rfl
@[simp] theorem State.setValidQ_inputs (s : State) (x : Bool) : (s.setValidQ x).inputs = s.inputs := rfl
@[simp] theorem State.setValidQ_cycle (s : State) (x : Bool) : (s.setValidQ x).cycle = s.cycle := rfl
@[simp] theorem State.setValidQ_fault (s : State) (x : Bool) : (s.setValidQ x).fault = s.fault := rfl
@[simp] theorem State.setValidQ_refused (s : State) (x : Bool) : (s.setValidQ x).refused = s.refused := rfl

@[simp] theorem State.setMem_stateQ (s : State) (m : Memory) : (s.setMem m).stateQ = s.stateQ := rfl
@[simp] theorem State.setMem_variantQ (s : State) (m : Memory) : (s.setMem m).variantQ = s.variantQ := rfl
@[simp] theorem State.setMem_validQ (s : State) (m : Memory) : (s.setMem m).validQ = s.validQ := rfl
@[simp] theorem State.setMem_mem (s : State) (m : Memory) : (s.setMem m).mem = m := rfl
@[simp] theorem State.setMem_inputs (s : State) (m : Memory) : (s.setMem m).inputs = s.inputs := rfl
@[simp] theorem State.setMem_cycle (s : State) (m : Memory) : (s.setMem m).cycle = s.cycle := rfl
@[simp] theorem State.setMem_fault (s : State) (m : Memory) : (s.setMem m).fault = s.fault := rfl
@[simp] theorem State.setMem_refused (s : State) (m : Memory) : (s.setMem m).refused = s.refused := rfl

@[simp] theorem State.setInputs_stateQ (s : State) (ws : List OpWord) : (s.setInputs ws).stateQ = s.stateQ := rfl
@[simp] theorem State.setInputs_variantQ (s : State) (ws : List OpWord) : (s.setInputs ws).variantQ = s.variantQ := rfl
@[simp] theorem State.setInputs_validQ (s : State) (ws : List OpWord) : (s.setInputs ws).validQ = s.validQ := rfl
@[simp] theorem State.setInputs_mem (s : State) (ws : List OpWord) : (s.setInputs ws).mem = s.mem := rfl
@[simp] theorem State.setInputs_inputs (s : State) (ws : List OpWord) : (s.setInputs ws).inputs = ws := rfl
@[simp] theorem State.setInputs_cycle (s : State) (ws : List OpWord) : (s.setInputs ws).cycle = s.cycle := rfl
@[simp] theorem State.setInputs_fault (s : State) (ws : List OpWord) : (s.setInputs ws).fault = s.fault := rfl
@[simp] theorem State.setInputs_refused (s : State) (ws : List OpWord) : (s.setInputs ws).refused = s.refused := rfl

@[simp] theorem State.nextCycle_stateQ (s : State) : (s.nextCycle).stateQ = s.stateQ := rfl
@[simp] theorem State.nextCycle_variantQ (s : State) : (s.nextCycle).variantQ = s.variantQ := rfl
@[simp] theorem State.nextCycle_validQ (s : State) : (s.nextCycle).validQ = s.validQ := rfl
@[simp] theorem State.nextCycle_mem (s : State) : (s.nextCycle).mem = s.mem := rfl
@[simp] theorem State.nextCycle_inputs (s : State) : (s.nextCycle).inputs = s.inputs := rfl
@[simp] theorem State.nextCycle_cycle (s : State) : (s.nextCycle).cycle = s.cycle + 1 := rfl
@[simp] theorem State.nextCycle_fault (s : State) : (s.nextCycle).fault = s.fault := rfl
@[simp] theorem State.nextCycle_refused (s : State) : (s.nextCycle).refused = s.refused := rfl

@[simp] theorem State.markFault_stateQ (s : State) (f : Fault) : (s.markFault f).stateQ = s.stateQ := rfl
@[simp] theorem State.markFault_variantQ (s : State) (f : Fault) : (s.markFault f).variantQ = s.variantQ := rfl
@[simp] theorem State.markFault_validQ (s : State) (f : Fault) : (s.markFault f).validQ = s.validQ := rfl
@[simp] theorem State.markFault_mem (s : State) (f : Fault) : (s.markFault f).mem = s.mem := rfl
@[simp] theorem State.markFault_inputs (s : State) (f : Fault) : (s.markFault f).inputs = s.inputs := rfl
@[simp] theorem State.markFault_cycle (s : State) (f : Fault) : (s.markFault f).cycle = s.cycle := rfl
@[simp] theorem State.markFault_fault (s : State) (f : Fault) : (s.markFault f).fault = some f := rfl
@[simp] theorem State.markFault_refused (s : State) (f : Fault) : (s.markFault f).refused = s.refused := rfl

@[simp] theorem State.markRefused_stateQ (s : State) (r : Refusal) : (s.markRefused r).stateQ = s.stateQ := rfl
@[simp] theorem State.markRefused_variantQ (s : State) (r : Refusal) : (s.markRefused r).variantQ = s.variantQ := rfl
@[simp] theorem State.markRefused_validQ (s : State) (r : Refusal) : (s.markRefused r).validQ = s.validQ := rfl
@[simp] theorem State.markRefused_mem (s : State) (r : Refusal) : (s.markRefused r).mem = s.mem := rfl
@[simp] theorem State.markRefused_inputs (s : State) (r : Refusal) : (s.markRefused r).inputs = s.inputs := rfl
@[simp] theorem State.markRefused_cycle (s : State) (r : Refusal) : (s.markRefused r).cycle = s.cycle := rfl
@[simp] theorem State.markRefused_fault (s : State) (r : Refusal) : (s.markRefused r).fault = s.fault := rfl
@[simp] theorem State.markRefused_refused (s : State) (r : Refusal) : (s.markRefused r).refused = some r := rfl

end Sys2Proof.Machine
end

