-- ==== Sys2Proof/Laws/Step.lean ====
section
/-! SUPPORT. For each shared operation, once, everything it can do; then the same of `exec`, `step` and `tick`. -/

namespace Sys2Proof.Machine

/-! ### Reset -/

@[simp] theorem loadReset_stateQ (v : Variant) (s : State) : (loadReset v s).stateQ = some 0x04 := rfl
@[simp] theorem loadReset_variantQ (v : Variant) (s : State) : (loadReset v s).variantQ = some v := rfl
@[simp] theorem loadReset_validQ (v : Variant) (s : State) : (loadReset v s).validQ = some false := rfl
@[simp] theorem loadReset_mem (v : Variant) (s : State) : (loadReset v s).mem = s.mem := rfl
@[simp] theorem loadReset_inputs (v : Variant) (s : State) : (loadReset v s).inputs = s.inputs := rfl
@[simp] theorem loadReset_cycle (v : Variant) (s : State) : (loadReset v s).cycle = s.cycle := rfl
@[simp] theorem loadReset_fault (v : Variant) (s : State) : (loadReset v s).fault = s.fault := rfl
@[simp] theorem loadReset_refused (v : Variant) (s : State) : (loadReset v s).refused = s.refused := rfl

/-- A reset that answers a next state has a legal code and does the register writes of a reset cycle. -/
theorem resetTo_next {v : BitVec 2} {s t : State} (h : resetTo v s = .next t) :
    ∃ x, variantOfCode v = some x ∧ t = loadReset x s := by
  unfold resetTo at h
  split at h
  · rename_i x hx
    exact ⟨x, hx, by cases h; rfl⟩
  · cases h

/-! ### The three shapes of a next state -/

/-- The next state of a `PROC` that loads the cell `b`. -/
def afterProc (b : Byte) (s : State) : State := (s.setStateQ b).setValidQ true

@[simp] theorem afterProc_stateQ (b : Byte) (s : State) : (afterProc b s).stateQ = some b := rfl
@[simp] theorem afterProc_variantQ (b : Byte) (s : State) : (afterProc b s).variantQ = s.variantQ := rfl
@[simp] theorem afterProc_validQ (b : Byte) (s : State) : (afterProc b s).validQ = some true := rfl
@[simp] theorem afterProc_mem (b : Byte) (s : State) : (afterProc b s).mem = s.mem := rfl
@[simp] theorem afterProc_inputs (b : Byte) (s : State) : (afterProc b s).inputs = s.inputs := rfl
@[simp] theorem afterProc_cycle (b : Byte) (s : State) : (afterProc b s).cycle = s.cycle := rfl
@[simp] theorem afterProc_fault (b : Byte) (s : State) : (afterProc b s).fault = s.fault := rfl
@[simp] theorem afterProc_refused (b : Byte) (s : State) : (afterProc b s).refused = s.refused := rfl

/-- A `PROC` that answers a next state found both registers written and loaded the cell of their row. -/
theorem execProc_next {p : Pin} {s t : State} (h : execProc p s = .next t) :
    ∃ b v, s.stateQ = some b ∧ s.variantQ = some v ∧ t = afterProc (s.mem.rom v (rowField b) p) s := by
  unfold execProc at h
  split at h
  · rename_i b v hb hv
    exact ⟨b, v, hb, hv, by cases h; rfl⟩
  · cases h

/-- Everything `exec` can do when it answers a next state. -/
theorem exec_cases {i : Instr} {s t : State} (h : exec i s = .next t) :
    (∃ v, (i = .resetFull ∧ v = .full ∨ i = .resetHalf ∧ v = .half ∨ i = .resetTri ∧ v = .tri) ∧ t = loadReset v s) ∨
      (∃ p b v, i = .proc p ∧ s.stateQ = some b ∧ s.variantQ = some v ∧
        t = afterProc (s.mem.rom v (rowField b) p) s) ∨
      (i = .idle ∧ t = s.setValidQ false) := by
  cases i with
  | resetFull =>
    obtain ⟨x, hx, rfl⟩ := resetTo_next (v := 0b00) h
    cases hx
    exact .inl ⟨.full, .inl ⟨rfl, rfl⟩, rfl⟩
  | resetHalf =>
    obtain ⟨x, hx, rfl⟩ := resetTo_next (v := 0b01) h
    cases hx
    exact .inl ⟨.half, .inr (.inl ⟨rfl, rfl⟩), rfl⟩
  | resetTri =>
    obtain ⟨x, hx, rfl⟩ := resetTo_next (v := 0b10) h
    cases hx
    exact .inl ⟨.tri, .inr (.inr ⟨rfl, rfl⟩), rfl⟩
  | resetReserved =>
    obtain ⟨x, hx, -⟩ := resetTo_next (v := 0b11) h
    cases hx
  | proc p =>
    obtain ⟨b, v, hb, hv, rfl⟩ := execProc_next h
    exact .inr (.inl ⟨p, b, v, rfl, hb, hv, rfl⟩)
  | idle =>
    cases h
    exact .inr (.inr ⟨rfl, rfl⟩)

/-! ### The cycle -/

/-- A fetch that answers an operation: no mark, an admitted configuration, and a word to decode. -/
theorem fetch_next {s t : State} {i : Instr} (h : fetch s = .next (i, t)) :
    s.fault = none ∧ s.refused = none ∧ s.mem.admitted ∧
      ∃ w ws, s.inputs = w :: ws ∧ i = decode w ∧ t = s.setInputs ws := by
  unfold fetch at h
  split at h
  · cases h
  · cases h
  · rename_i hf hr
    split at h
    · cases h
    · rename_i hw
      refine ⟨hf, hr, (firstIllFormed_eq_none_iff _).mp hw, ?_⟩
      split at h
      · cases h
      · rename_i w ws hin
        cases h
        exact ⟨w, ws, hin, rfl, rfl⟩

/-- What `fetch` answers where nothing stops the cycle. -/
theorem fetch_of_ready {s : State} {w : OpWord} {ws : List OpWord} (hf : s.fault = none) (hr : s.refused = none)
    (hm : s.mem.admitted) (hin : s.inputs = w :: ws) : fetch s = .next (decode w, s.setInputs ws) := by
  unfold fetch
  rw [hf, hr, (firstIllFormed_eq_none_iff _).mpr hm, hin]

/-- The end of a cycle changes a next state only, and there only the cycle index. -/
theorem endCycle_next {o : Host.Outcome State Fault Refusal} {t : State} (h : endCycle o = .next t) :
    ∃ u, o = .next u ∧ t = u.nextCycle := by
  cases o with
  | next u => cases h; exact ⟨u, rfl, rfl⟩
  | fault f => cases h
  | refused r => cases h

/-- Everything a step can do when it answers a next state: it took the first word, and `exec` of what that word decodes
to answered the state whose cycle then ended. -/
theorem step_next {s t : State} (h : step s = .next t) :
    s.fault = none ∧ s.refused = none ∧ s.mem.admitted ∧
      ∃ w ws u, s.inputs = w :: ws ∧ exec (decode w) (s.setInputs ws) = .next u ∧ t = u.nextCycle := by
  unfold step at h
  split at h
  · rename_i i s1 hfetch
    obtain ⟨hf, hr, hm, w, ws, hin, rfl, rfl⟩ := fetch_next hfetch
    obtain ⟨u, hu, rfl⟩ := endCycle_next h
    exact ⟨hf, hr, hm, w, ws, u, hin, hu, rfl⟩
  · cases h
  · cases h

/-- A step keeps the canonical form of the memory: no operation writes a ROM (20_memory.md R40). -/
theorem step_keeps_wf {s t : State} (hs : s.mem.wf) (h : step s = .next t) : t.mem.wf := by
  obtain ⟨-, -, -, w, ws, u, -, hu, rfl⟩ := step_next h
  rcases exec_cases hu with ⟨v, -, rfl⟩ | ⟨p, b, v, -, -, -, rfl⟩ | ⟨-, rfl⟩ <;> exact hs

/-- The memory of the state after reset has the canonical form. -/
theorem reset_mem_wf : State.reset.mem.wf := wf_nil

/-- What a run with a final state was: the final state is the state after its words, unmarked, and its configuration was
admitted. -/
theorem finalState_eq_some_iff (ws : List OpWord) (s t : State) :
    finalState ws s = some t ↔ (run ws s).unmarked = true ∧ s.mem.admitted ∧ run ws s = t := by
  rw [← firstIllFormed_eq_none_iff]
  simp [finalState, and_assoc]

/-- Everything a tick can do: the next state of the step, or the same state with a mark. -/
theorem tick_cases (w : OpWord) (s : State) :
    (∃ t, step (s.setInputs (w :: s.inputs)) = .next t ∧ tick w s = t) ∨
      (∃ f, step (s.setInputs (w :: s.inputs)) = .fault f ∧ tick w s = s.markFault f) ∨
      (∃ r, step (s.setInputs (w :: s.inputs)) = .refused r ∧ tick w s = s.markRefused r) := by
  unfold tick
  cases h : step (s.setInputs (w :: s.inputs)) with
  | next t => exact .inl ⟨t, rfl, rfl⟩
  | fault f => exact .inr (.inl ⟨f, rfl, rfl⟩)
  | refused r => exact .inr (.inr ⟨r, rfl, rfl⟩)

/-- The tick of an unmarked state in an admitted configuration, where `exec` answers a next state. -/
theorem tick_of_next {w : OpWord} {s u : State} (hf : s.fault = none) (hr : s.refused = none)
    (hm : s.mem.admitted) (hu : exec (decode w) s = .next u) : tick w s = u.nextCycle := by
  have hfetch := fetch_of_ready (s := s.setInputs (w :: s.inputs)) (w := w) (ws := s.inputs) hf hr hm rfl
  have hs : step (s.setInputs (w :: s.inputs)) = endCycle (exec (decode w) s) := by
    simp only [step, hfetch]
    rfl
  simp only [tick, hs, hu, endCycle]

/-- The tick of an unmarked state in an admitted configuration, where `exec` faults. -/
theorem tick_of_fault {w : OpWord} {s : State} {f : Fault} (hf : s.fault = none) (hr : s.refused = none)
    (hm : s.mem.admitted) (hu : exec (decode w) s = .fault f) : tick w s = s.markFault f := by
  have hfetch := fetch_of_ready (s := s.setInputs (w :: s.inputs)) (w := w) (ws := s.inputs) hf hr hm rfl
  have hs : step (s.setInputs (w :: s.inputs)) = endCycle (exec (decode w) s) := by
    simp only [step, hfetch]
    rfl
  simp only [tick, hs, hu, endCycle]

/-- The tick of an unmarked state in an admitted configuration, where `exec` refuses. -/
theorem tick_of_refused {w : OpWord} {s : State} {r : Refusal} (hf : s.fault = none) (hr : s.refused = none)
    (hm : s.mem.admitted) (hu : exec (decode w) s = .refused r) : tick w s = s.markRefused r := by
  have hfetch := fetch_of_ready (s := s.setInputs (w :: s.inputs)) (w := w) (ws := s.inputs) hf hr hm rfl
  have hs : step (s.setInputs (w :: s.inputs)) = endCycle (exec (decode w) s) := by
    simp only [step, hfetch]
    rfl
  simp only [tick, hs, hu, endCycle]

end Sys2Proof.Machine
end

