-- ==== Sys2Proof/Tests/Slice0.lean ====
section
/-! SUPPORT. The model's own tests. Expected values are those of 95_test_vectors.md, or of the rule a test names; the ROM
contents are the non-vacuity witness of its L2.8, which is not the hardware's. Last, the witnesses: for each statement of the
obligations that has hypotheses, a state and operands that meet all of them together. -/

namespace Sys2Proof.Tests

open Sys2Proof Sys2Proof.Machine

/-! ### Helpers -/

/-- The witness ROMs of L2.8, every cell named. -/
def witnessMem : Memory := allCells.map fun c =>
  ((flatAddr c.1 (romAddr c.2.1 c.2.2)).toNat,
    match c.1 with
    | .full => witnessFull c.2.1 c.2.2
    | .half => witnessHalf c.2.1 c.2.2
    | .tri => witnessTri c.2.1 c.2.2)

/-- A state of the witness configuration with the registers written. -/
def at_ (b : Byte) (v : Variant) (valid : Bool) : State :=
  { State.unwritten with stateQ := some b, variantQ := some v, validQ := some valid, mem := witnessMem }

/-- The registers and outputs of a next state. -/
def seen (o : Host.Outcome State Fault Refusal) : Option (Option Byte × Option Variant × Outputs) :=
  match o with
  | .next t => some (t.stateQ, t.variantQ, t.outputs)
  | _ => none

/-- The reason of a stop. -/
def stop (o : Host.Outcome State Fault Refusal) : Option (Fault ⊕ Refusal) :=
  match o with
  | .next _ => none
  | .fault f => some (.inl f)
  | .refused r => some (.inr r)

/-! ### Decoding: words written out bit by bit (L2.7) -/

theorem test_decode_resetFull : decode 0b001000 = .resetFull ∧ decode 0b001111 = .resetFull := by decide
theorem test_decode_resetHalf : decode 0b011000 = .resetHalf ∧ decode 0b011101 = .resetHalf := by decide
theorem test_decode_resetTri : decode 0b101000 = .resetTri ∧ decode 0b101110 = .resetTri := by decide
theorem test_decode_resetReserved : decode 0b111000 = .resetReserved ∧ decode 0b111100 = .resetReserved := by decide
theorem test_decode_proc : decode 0b000100 = .proc 0 ∧ decode 0b000101 = .proc 1 ∧ decode 0b000110 = .proc 2 ∧
    decode 0b110111 = .proc 3 := by decide
theorem test_decode_idle : decode 0b000000 = .idle ∧ decode 0b110011 = .idle := by decide
/-- 30_encoding.md R73: sample 2 is `0bBA = 0b10`, pin B high and pin A low. -/
theorem test_pin_order : pinB 2 = true ∧ pinA 2 = false := by decide
/-- A byte with bit 6 set is no operation word (30_encoding.md R70). -/
theorem test_decodeBits_wide : decodeBits 8 0x44 = .error (.widerThanWord 0x44) ∧ decodeTableWord 8 0x06 = some (.proc 2) :=
  ⟨rfl, rfl⟩
theorem test_ports : OpWord.ofPorts 0b10 true false 0b01 = 0x29 := by decide

/-! ### Well-formedness: an ill-formed term for each condition (L2.6, 30_encoding.md R78) -/

theorem test_cellWf_accepts : cellWf 0x04 ∧ cellWf 0x14 ∧ cellWf 0x34 ∧ cellWf 0x07 ∧ cellWf 0x00 := by decide
theorem test_cellWf_bit3 : cellWf 0x08 = false ∧ cellWf 0x0F = false := by decide
theorem test_cellWf_bits76 : cellWf 0x40 = false ∧ cellWf 0x84 = false := by decide
theorem test_cellWf_dir : cellWf 0x20 = false ∧ cellWf 0x24 = false := by decide
theorem test_romWf_refuses : ¬ romWf (fun s p => if s = 6 ∧ p = 3 then 0x08 else 0x04) := by decide
theorem test_pseudoWf_refuses : (Pseudo.wait 0).wf = false ∧ (Pseudo.seq []).wf = false := by decide
theorem test_instrWellFormed : (Instr.proc 3).wellFormed = true := by decide
theorem test_firstIllFormed : firstIllFormed [(0x2A, 0x24), (0x3F, 0x08)] = some (.half, 2, 2) := by decide
theorem test_memory_wf_refuses : ¬ Memory.wf [(0x05, 0x00), (0x05, 0x00)] := fun h => by simpa using h.1
theorem test_witness_admitted : firstIllFormed witnessMem = none := by decide +kernel

/-! ### ROM addresses (L2.5) -/

theorem test_romAddr : romAddr 7 3 = 0x1F ∧ romAddr 1 3 = 0x07 ∧ romAddr 4 2 = 0x12 := by decide
theorem test_flatAddr : flatAddr .half (romAddr 2 2) = 0x2A ∧ flatAddr .half (romAddr 6 1) = 0x39 ∧
    flatAddr .tri (romAddr 2 0) = 0x48 ∧ flatAddr .tri (romAddr 6 3) = 0x5B := by decide
theorem test_readFlat_hole : readFlat [] 0x60 7 = .error (.reservedVariant 7) := rfl

/-! ### Operations, one step each (L2.2, L2.3, L2.4) -/

theorem test_resetFull : seen (exec .resetFull (at_ 0x14 .full true)) =
    some (some 0x04, some .full, ⟨some 0b00, some false, some 4⟩) := by decide
theorem test_resetHalf_unwritten : seen (exec .resetHalf State.unwritten) =
    some (some 0x04, some .half, ⟨some 0b00, some false, some 4⟩) := by decide
theorem test_resetTri : seen (exec .resetTri (at_ 0x06 .full true)) =
    some (some 0x04, some .tri, ⟨some 0b00, some false, some 4⟩) := by decide
theorem test_resetReserved : stop (exec .resetReserved (at_ 0x04 .half false)) = some (.inr (.reservedVariant 0)) := by
  decide
theorem test_idle_hides : seen (exec .idle (at_ 0x34 .full true)) =
    some (some 0x34, some .full, ⟨some 0b00, some false, some 4⟩) := by decide
theorem test_idle_unwritten : seen (exec .idle State.unwritten) =
    some (none, none, ⟨some 0b00, some false, none⟩) := by decide
theorem test_proc_clockwise : seen (exec (.proc 3) (at_ 0x07 .full false)) =
    some (some 0x14, some .full, ⟨some 0b01, some true, some 4⟩) := by decide +kernel
theorem test_proc_counterClockwise : seen (exec (.proc 3) (at_ 0x01 .full false)) =
    some (some 0x34, some .full, ⟨some 0b11, some true, some 4⟩) := by decide +kernel
theorem test_step_reset_in_detent : seen (step ((at_ 0x06 .full true).withFetchWord 8 0x2F)) =
    some (some 0x04, some .tri, ⟨some 0b00, some false, some 4⟩) := by decide +kernel
theorem test_step_unwritten : stop (step (State.unwritten.withFetchWord 8 0x06)) = some (.inl (.unwrittenState 0)) := by
  decide +kernel

/-- The run of no words: its final state is the start state (log 15), and an ill-formed configuration has none
(60_exceptions.md R115). -/
theorem test_finalState_noWord : finalState [] State.reset = some State.reset ∧
    finalState [] (State.reset.setMem [(0x2A, 0x24)]) = none := by decide

/-! ### Assembler text (30_encoding.md R76, R78) -/

theorem test_assemble_proc : assemble ["PROC 0b10 ; sample".toList] = .ok [0x06] := rfl
theorem test_assemble_seq : assemble ["SEQ 1, 0, 2, 3".toList, "SWITCH TRI".toList] = .ok [0x05, 0x04, 0x06, 0x07, 0x28] :=
  rfl
theorem test_assemble_detent : assemble ["RESET 0".toList, "CW_DETENT".toList, "WAIT 2".toList] =
    .ok [0x08, 0x06, 0x04, 0x05, 0x07, 0x00, 0x00] := rfl
theorem test_assemble_refuses : assemble ["WAIT 0".toList] = .error (.notAnOperation "WAIT 0".toList) := rfl

/-! ### Witnesses of the hypotheses -/

/-- The witness ROMs, read back. -/
theorem witness_full : witnessMem.rom .full = witnessFull := by
  have h : ∀ s p, witnessMem.rom .full s p = witnessFull s p := by decide +kernel
  funext s p
  exact h s p

theorem witness_half : witnessMem.rom .half = witnessHalf := by
  have h : ∀ s p, witnessMem.rom .half s p = witnessHalf s p := by decide +kernel
  funext s p
  exact h s p

theorem witness_tri : witnessMem.rom .tri = witnessTri := by
  have h : ∀ s p, witnessMem.rom .tri s p = witnessTri s p := by decide +kernel
  funext s p
  exact h s p

theorem witness_admitted : witnessMem.admitted := (firstIllFormed_eq_none_iff _).mp test_witness_admitted

/-- EarlySampleFaultsForGood, and the fault clauses of UnwrittenRegistersHaveNoValue and ProcResult. -/
theorem hyp_earlySample : State.unwritten.unmarked = true ∧ State.unwritten.mem.admitted ∧
    State.unwritten.stateQ = none ∧ State.unwritten.variantQ = none ∧ decode 0x06 = .proc 2 :=
  ⟨rfl, admitted_nil, rfl, rfl, rfl⟩

/-- The output clauses of UnwrittenRegistersHaveNoValue and OutputsFollowTheRegisters. -/
theorem hyp_outputs : State.unwritten.validQ = none ∧ State.unwritten.stateQ = none ∧
    (State.unwritten.setValidQ true).validQ = some true ∧ (State.unwritten.setValidQ true).stateQ = none ∧
    (at_ 0x14 .full true).validQ = some true ∧ (at_ 0x14 .full true).stateQ = some 0x14 ∧
    (at_ 0x14 .full false).validQ = some false ∧
    (∃ s' : State, s' ≠ at_ 0x14 .full true ∧ s'.stateQ = some 0x14 ∧ s'.variantQ = some .full ∧ s'.validQ = some true) :=
  ⟨rfl, rfl, rfl, rfl, rfl, rfl, rfl, ⟨(at_ 0x14 .full true).nextCycle,
    fun h => absurd (congrArg State.cycle h) (by decide), rfl, rfl, rfl⟩⟩

/-- LegalResetResult: words of each row, and a next state for its last clause. -/
theorem hyp_resetWords : (0x0F#6 &&& 0x38 = 0x08) ∧ (0x18#6 &&& 0x38 = 0x18) ∧ (0x2A#6 &&& 0x38 = 0x28) ∧
    exec (resetInstr .half) State.reset = .next (loadReset .half State.reset) := ⟨rfl, rfl, rfl, rfl⟩

/-- ReservedResetIsRefused, at both ends of the range. -/
theorem hyp_reservedReset : State.reset.unmarked = true ∧ State.reset.mem.admitted ∧ 0x38 ≤ (0x38#6).toNat ∧
    0x38 ≤ (0x3F#6).toNat ∧ decode 0x38 = .resetReserved ∧ decode 0x3F = .resetReserved ∧ decode 0x37 = .proc 3 :=
  ⟨rfl, admitted_nil, by decide, by decide, rfl, rfl, rfl⟩

/-- ResetDiscardsProgress, its clause on a PROC before the reset too, and LegalResetMakesReady. -/
theorem hyp_legalReset : (at_ 0x06 .full true).unmarked = true ∧ (at_ 0x06 .full true).mem.admitted ∧
    variantOfCode 0b10 = some .tri ∧ variantOfCode 0b00 = some .full ∧ OpWord.rst 0x2F = true ∧ isReserved 0x2F = false ∧
    decode 0x05 = .proc 1 ∧ (at_ 0x06 .full true).stateQ = some 0x06 ∧ (at_ 0x06 .full true).variantQ = some .full :=
  ⟨rfl, witness_admitted, rfl, rfl, rfl, rfl, rfl, rfl, rfl⟩

/-- IdleResult. -/
theorem hyp_idleResult : (0x33#6 &&& 0x0C = 0x00) ∧ (at_ 0x14 .full true).stateQ = some 0x14 ∧
    (at_ 0x14 .full true).validQ = some true := ⟨rfl, rfl, rfl⟩

/-- IdleCyclesAreTransparent: a written state, and for its clause on an unwritten one State.unwritten. -/
theorem hyp_idleCycles : (at_ 0x05 .full true).unmarked = true ∧ (at_ 0x05 .full true).mem.admitted ∧
    (∀ w ∈ [0x00#6, 0x33#6], w &&& 0x0C = 0x00) ∧ [0x00#6, 0x33#6] ≠ [] ∧ decode 0x04 = .proc 0 ∧
    (at_ 0x05 .full true).written = true ∧ State.unwritten.unmarked = true ∧ State.unwritten.mem.admitted ∧
    State.unwritten.stateQ = none :=
  ⟨rfl, witness_admitted, by decide, by decide, rfl, rfl, rfl, admitted_nil, rfl⟩

/-- ProcResult: its completion clause and its example. -/
theorem hyp_procResult : (0x37#6 &&& 0x0C = 0x04) ∧ (at_ 0x07 .full false).stateQ = some 0x07 ∧
    (at_ 0x07 .full false).variantQ = some .full ∧ (at_ 0x07 .full false).mem.rom .full 7 3 = 0x14 :=
  ⟨rfl, rfl, rfl, congrFun (congrFun witness_full 7) 3⟩

/-- ProcReadsTheRowOnly: the states 0x04 and 0x34 read one row. -/
theorem hyp_procReadsTheRowOnly : (at_ 0x04 .full false).stateQ = some 0x04 ∧ (at_ 0x34 .full true).stateQ = some 0x34 ∧
    (0x04#8).extractLsb' 0 3 = (0x34#8).extractLsb' 0 3 ∧ (at_ 0x04 .full false).variantQ = (at_ 0x34 .full true).variantQ ∧
    (at_ 0x04 .full false).variantQ.isSome = true ∧
    (∀ v, (at_ 0x04 .full false).mem.rom v = (at_ 0x34 .full true).mem.rom v) :=
  ⟨rfl, rfl, rfl, rfl, rfl, fun _ => rfl⟩

/-- RowIndexAgreesWithSource: a bound byte, and one outside the bound. -/
theorem hyp_rowIndex : (0x34#8).getLsbD 3 = false ∧ (0xE7#8).getLsbD 3 = false := by decide

/-- StepShowsInTheNextCycle: its clause on PROC, and the two forms of its other clause. -/
theorem hyp_stepShows : (at_ 0x07 .full false).unmarked = true ∧ (at_ 0x07 .full false).mem.admitted ∧
    (at_ 0x07 .full false).stateQ = some 0x07 ∧ (at_ 0x07 .full false).variantQ = some .full ∧ cellWf 0x07 = true ∧
    decode 0x07 = .proc 3 ∧ (OpWord.rst 0x08 = true ∧ isReserved 0x08 = false) ∧ decode 0x00 = .idle :=
  ⟨rfl, witness_admitted, rfl, rfl, rfl, rfl, ⟨rfl, rfl⟩, rfl⟩

/-- WellFormedCellsHaveThreeDirections and FullStepFinalCells. -/
theorem hyp_fullRom : romWf witnessFull ∧ fullSeqCw witnessFull ∧ fullSeqCcw witnessFull ∧ fullFire witnessFull := by
  decide

/-- ResetWinsOverEnable, a word for each clause. -/
theorem hyp_priority : (0x0F#6).getLsbD 3 = true ∧ ((0x37#6).getLsbD 3 = false ∧ (0x37#6).getLsbD 2 = true) ∧
    ((0x33#6).getLsbD 3 = false ∧ (0x33#6).getLsbD 2 = false) := by decide

/-- CanonicalWords, its last three clauses. -/
theorem hyp_canonicalWords : parseLine "CCW_DETENT".toList = .ok [.proc 1, .proc 0, .proc 2, .proc 3] ∧
    (∀ p, Instr.resetTri ≠ .proc p) ∧ (opcodeRow .resetTri).holds 0x2F = true ∧ (opcodeRow (.proc 2)).holds 0x36 = true :=
  ⟨rfl, fun _ h => (by cases h), rfl, rfl⟩

/-- DecodeEncodeRoundTrip. -/
theorem hyp_roundTrip : (Instr.proc 2).wellFormed = true ∧ encode (.proc 2) = encode (.proc 2) := ⟨rfl, rfl⟩

/-- RomAddressMap, at the ends of its two ranges. -/
theorem hyp_romAddressMap : (0x00#7).toNat < 0x60 ∧ (0x5F#7).toNat < 0x60 ∧ 0x60 ≤ (0x60#7).toNat ∧
    0x60 ≤ (0x7F#7).toNat := by decide

/-- IllFormedRomIsRefused: an admitted and an ill-formed configuration. -/
theorem hyp_illFormedRom : State.reset.unmarked = true ∧ State.reset.mem.admitted ∧
    (State.reset.setMem [(0x2A, 0x24)]).unmarked = true ∧ ¬ (State.reset.setMem [(0x2A, 0x24)]).mem.admitted ∧
    (flatAddr .full (0#3 ++ 0#2)).toNat < (flatAddr .half (2#3 ++ 2#2)).toNat :=
  ⟨rfl, admitted_nil, rfl, fun h => by
    have h' := (firstIllFormed_eq_none_iff _).mpr h
    revert h'
    decide, by decide⟩

/-- FullStepClockwiseDetent, FullStepCounterClockwiseDetent, FullStepFiresFromFinalRows, BounceAtTheDetentAddsNothing and
FullStepPathOfBothDetents. -/
theorem hyp_fullStep : (at_ 0x04 .full false).unmarked = true ∧ (at_ 0x04 .full false).mem.admitted ∧
    (at_ 0x04 .full false).variantQ = some .full ∧ (at_ 0x04 .full false).stateQ = some 0x04 ∧
    (0x04#8).extractLsb' 0 3 = 4#3 ∧
    fullSeqCw ((at_ 0x04 .full false).mem.rom .full) ∧ fullSeqCcw ((at_ 0x04 .full false).mem.rom .full) ∧
    fullFire ((at_ 0x04 .full false).mem.rom .full) ∧ fullNoise ((at_ 0x04 .full false).mem.rom .full) ∧
    fullPath ((at_ 0x04 .full false).mem.rom .full) := by
  refine ⟨rfl, witness_admitted, rfl, rfl, rfl, ?_⟩
  change fullSeqCw (witnessMem.rom .full) ∧ fullSeqCcw (witnessMem.rom .full) ∧ fullFire (witnessMem.rom .full) ∧
    fullNoise (witnessMem.rom .full) ∧ fullPath (witnessMem.rom .full)
  rw [witness_full]
  decide

/-- FullStepFiresFromFinalRows: a cell that fires in each direction, and a row that is none of the final ones. -/
theorem hyp_fires : (witnessFull 7 3).extractLsb' 4 2 ≠ 0b00#2 ∧ (witnessFull 1 3).extractLsb' 4 2 ≠ 0b00#2 ∧
    (0x04#8).extractLsb' 0 3 ≠ 7#3 ∧ (0x04#8).extractLsb' 0 3 ≠ 1#3 := by decide

/-- HalfStepAsymmetry, both rows. -/
theorem hyp_halfStep : (at_ 0x02 .half false).variantQ = some .half ∧ (at_ 0x02 .half false).stateQ = some 0x02 ∧
    (at_ 0x06 .half false).stateQ = some 0x06 ∧ (0x02#8).extractLsb' 0 3 = 2#3 ∧ (0x06#8).extractLsb' 0 3 = 6#3 ∧
    halfAsym ((at_ 0x02 .half false).mem.rom .half) ∧ halfAsym ((at_ 0x06 .half false).mem.rom .half) := by
  refine ⟨rfl, rfl, rfl, rfl, rfl, ?_⟩
  change halfAsym (witnessMem.rom .half) ∧ halfAsym (witnessMem.rom .half)
  rw [witness_half]
  decide

/-- TristateInvalidRows, both rows and both readings, and TristatePinOneGivesNoStep. -/
theorem hyp_tristate : (at_ 0x02 .tri false).variantQ = some .tri ∧ (at_ 0x02 .tri false).stateQ = some 0x02 ∧
    (at_ 0x06 .tri false).stateQ = some 0x06 ∧ (0x02#8).extractLsb' 0 3 = 2#3 ∧ (0x06#8).extractLsb' 0 3 = 6#3 ∧
    triRows ((at_ 0x02 .tri false).mem.rom .tri) ∧ triRowsWhole ((at_ 0x02 .tri false).mem.rom .tri) ∧
    triPin1 ((at_ 0x02 .tri false).mem.rom .tri) := by
  refine ⟨rfl, rfl, rfl, rfl, rfl, ?_⟩
  change triRows (witnessMem.rom .tri) ∧ triRowsWhole (witnessMem.rom .tri) ∧ triPin1 (witnessMem.rom .tri)
  rw [witness_tri]
  decide

/-- FrameOfLegalResets, FrameOfProc and FrameOfIdle: each operation has a next state. -/
theorem hyp_frames : exec .resetHalf State.reset = .next (loadReset .half State.reset) ∧
    exec (.proc 1) State.reset = .next (afterProc (Config.rom .full 4 1) State.reset) ∧
    exec .idle State.reset = .next (State.reset.setValidQ false) := by
  refine ⟨rfl, ?_, rfl⟩
  change Host.Outcome.next (afterProc (Memory.rom [] .full (rowField 0x04) 1) State.reset) = _
  rw [rom_nil]
  rfl

/-- StepRunsTheDecodedOperation: a word for each of the three outcomes, and NoWordEndsTheRun. -/
theorem hyp_stepRuns : (State.unwritten.setInputs [0x00]).unmarked = true ∧ (State.unwritten.setInputs [0x00]).mem.admitted ∧
    (State.unwritten.setInputs [0x00]).inputs = [0x00] ∧
    exec (decode 0x00) State.unwritten = .next (State.unwritten.setValidQ false) ∧
    exec (decode 0x06) State.unwritten = .fault (.unwrittenState 0) ∧
    exec (decode 0x38) State.unwritten = .refused (.reservedVariant 0) ∧ State.unwritten.inputs = [] :=
  ⟨rfl, admitted_nil, rfl, rfl, rfl, rfl, rfl⟩

/-- CycleDispatch, a word or a state for each clause. -/
theorem hyp_cycleDispatch : (State.reset.markFault (.unwrittenState 0)).unmarked = false ∧ State.reset.unmarked = true ∧
    State.reset.mem.admitted ∧ (OpWord.rst 0x18 = true ∧ variantOfCode (OpWord.variantSel 0x18) = some .half) ∧
    (OpWord.rst 0x38 = true ∧ OpWord.variantSel 0x38 = 0b11) ∧ (OpWord.rst 0x06 = false ∧ OpWord.en 0x06 = true) ∧
    State.reset.stateQ = some 0x04 ∧ State.reset.variantQ = some .full ∧ State.unwritten.stateQ = none ∧
    (OpWord.rst 0x33 = false ∧ OpWord.en 0x33 = false) :=
  ⟨rfl, rfl, admitted_nil, ⟨rfl, rfl⟩, ⟨rfl, rfl⟩, ⟨rfl, rfl⟩, rfl, rfl, rfl, rfl, rfl⟩

/-- MarksAreSticky, both marks. -/
theorem hyp_marks : (State.reset.markFault (.unwrittenState 0)).unmarked = false ∧
    (State.reset.markRefused (.reservedVariant 0)).unmarked = false := ⟨rfl, rfl⟩

/-- ValidFollowsTheStrobe, VariantChangesOnlyAtReset, StepKeepsTheStateBound and RegistersStayWrittenTogether: a step from
reset that answers a next state. -/
theorem hyp_stepNext : (State.reset.setInputs [0x28]).inputs = [0x28] ∧
    step (State.reset.setInputs [0x28]) = .next (loadReset .tri State.reset).nextCycle ∧
    (State.reset.setInputs [0x28]).bounded ∧ (State.reset.setInputs [0x28]).writtenTogether ∧
    OpWord.rst 0x28 = true ∧ OpWord.rst 0x33 = false ∧ (0x33#6 &&& 0x0F = 0x03#6 &&& 0x0F) ∧
    step (State.reset.setInputs [0x33]) = .next (State.reset.setValidQ false).nextCycle :=
  ⟨rfl, rfl, fun b h => by cases h; rfl, ⟨rfl, fun _ => rfl, fun h => by cases h⟩, rfl, rfl, rfl, rfl⟩

/-- EveryLegalWordHasANextState and LegalRunsHaveFinalStates. -/
theorem hyp_ready : (at_ 0x04 .full false).Ready ∧ isReserved 0x06 = false ∧ isReserved 0x37 = false ∧
    (∀ w ∈ [0x06#6, 0x28#6, 0x00#6], isReserved w = false) :=
  ⟨⟨rfl, witness_admitted, rfl, fun b h => by cases h; rfl⟩, rfl, rfl, by decide⟩

/-- StateBoundAfterReset: after RESET TRI the state byte is 0x04. -/
theorem hyp_stateBoundAfterReset : State.unwritten.unmarked = true ∧ State.unwritten.mem.admitted ∧
    OpWord.rst 0x28 = true ∧ isReserved 0x28 = false ∧ (run [] (tick 0x28 State.unwritten)).stateQ = some 0x04 :=
  ⟨rfl, admitted_nil, rfl, rfl, rfl⟩

/-- RunsAreDeterministic: two different states that agree as it asks. -/
theorem hyp_deterministic : ∃ s s' : State, s ≠ s' ∧ s.unmarked = true ∧ s'.unmarked = true ∧ s.stateQ = s'.stateQ ∧
    s.variantQ = s'.variantQ ∧ s.validQ = s'.validQ ∧ ∀ v, s.mem.rom v = s'.mem.rom v :=
  ⟨at_ 0x04 .full false, (at_ 0x04 .full false).nextCycle, fun h => absurd (congrArg State.cycle h) (by decide), rfl, rfl, rfl, rfl, rfl,
    fun _ => rfl⟩

/-- RunCountsTheSourceSteps. -/
theorem hyp_runCounts : (at_ 0x04 .full false).unmarked = true ∧ (at_ 0x04 .full false).mem.admitted ∧
    (at_ 0x04 .full false).stateQ = some 0x04 ∧ (at_ 0x04 .full false).variantQ = some .full ∧ cellWf 0x04 = true ∧
    (∀ w ∈ [0x06#6, 0x00#6, 0x04#6], OpWord.rst w = false) :=
  ⟨rfl, witness_admitted, rfl, rfl, rfl, by decide⟩

/-- InstancesAreIndependent. -/
theorem hyp_instances : (1 : Nat) ≠ 0 := by decide

end Sys2Proof.Tests
end

section
/-! SUPPORT. Proofs of the statements on the scope (00_scope.md): the free ROMs, and the block as a refinement of the source's
`process`. First the facts about marks, decoding and single cycles that they and later proofs need. -/

namespace Sys2Proof.Machine

/-! ### Marks -/

/-- A state without marks, field by field. -/
theorem State.unmarked_iff (s : State) : s.unmarked = true ↔ s.fault = none ∧ s.refused = none := by
  simp [State.unmarked]

@[simp] theorem State.nextCycle_unmarked (s : State) : s.nextCycle.unmarked = s.unmarked := rfl
@[simp] theorem State.setValidQ_unmarked (s : State) (x : Bool) : (s.setValidQ x).unmarked = s.unmarked := rfl
@[simp] theorem afterProc_unmarked (b : Byte) (s : State) : (afterProc b s).unmarked = s.unmarked := rfl

/-! ### Decoding without a reset (30_encoding.md R72) -/

/-- A word without `rst` is a `PROC` of its sample or an `IDLE`, as `en` says. -/
theorem decode_of_rst_false {w : OpWord} (h : w.rst = false) :
    decode w = if w.en then .proc w.pin else .idle := by
  simp [decode, h]

theorem samples_cons_of_proc {w : OpWord} {p : Pin} (h : decode w = .proc p) (ws : List OpWord) :
    samples (w :: ws) = p :: samples ws := by
  simp [samples, h]

theorem samples_cons_of_idle {w : OpWord} (h : decode w = .idle) (ws : List OpWord) :
    samples (w :: ws) = samples ws := by
  simp [samples, h]

/-! ### One cycle of `PROC` and of `IDLE` (40_transition.md R88, 41_control.md R104) -/

/-- With both registers written `PROC` loads the cell of their row. -/
theorem exec_proc_of_written {s : State} {b : Byte} {v : Variant} (hb : s.stateQ = some b) (hv : s.variantQ = some v)
    (p : Pin) : exec (.proc p) s = .next (afterProc (s.mem.rom v (rowField b) p) s) := by
  simp only [exec, execProc, hb, hv]
  rfl

theorem tick_of_proc {s : State} {w : OpWord} {p : Pin} {b : Byte} {v : Variant} (hu : s.unmarked = true)
    (hm : s.mem.admitted) (hb : s.stateQ = some b) (hv : s.variantQ = some v) (hd : decode w = .proc p) :
    tick w s = (afterProc (s.mem.rom v (rowField b) p) s).nextCycle := by
  obtain ⟨hf, hr⟩ := s.unmarked_iff.mp hu
  exact tick_of_next hf hr hm (hd ▸ exec_proc_of_written hb hv p)

theorem tick_of_idle {s : State} {w : OpWord} (hu : s.unmarked = true) (hm : s.mem.admitted)
    (hd : decode w = .idle) : tick w s = (s.setValidQ false).nextCycle := by
  obtain ⟨hf, hr⟩ := s.unmarked_iff.mp hu
  exact tick_of_next hf hr hm (hd ▸ rfl)

/-! ### The host's count (70_reset_and_hazards.md R136) -/

theorem hostCount_observe_cons (w : OpWord) (ws : List OpWord) (s : State) :
    hostCount (observe (w :: ws) s) = countOf (tick w s).shown + hostCount (observe ws (tick w s)) := by
  simp [hostCount, observe]

/-- A valid cycle adds the step value of the loaded cell. -/
theorem countOf_shown_of_valid {s : State} {b : Byte} (hu : s.unmarked = true) (hq : s.validQ = some true)
    (hb : s.stateQ = some b) : countOf s.shown = stepValue b := by
  simp [State.shown, hu, State.outputs, State.stepO, State.stepValidO, hq, hb, countOf, stepValue]

/-- A cycle that is not valid adds nothing, marked or not. -/
theorem countOf_shown_of_invalid {s : State} (hq : s.validQ = some false) : countOf s.shown = 0 := by
  cases hu : s.unmarked <;> simp [State.shown, hu, State.outputs, State.stepO, State.stepValidO, hq, countOf]

/-! ### The source's `process` on well-formed cells (20_memory.md R43, R47, R48) -/

/-- The three conditions of `WF` on one cell. -/
theorem cellWf_iff (b : Byte) :
    cellWf b = true ↔ b.getLsbD 3 = false ∧ hiField b = 0b00#2 ∧ dirField b ≠ 0b10#2 := by
  simp [cellWf, and_assoc]

/-- Where bit 3 is 0 the source's 4-bit index is the row that `PROC` reads (40_transition.md R87). -/
theorem sourceCell_eq_rom {b : Byte} (h : b.getLsbD 3 = false) (R : Rom) (p : Pin) :
    sourceCell R b p = some (R (rowField b) p) := by
  have hindex : sourceIndex b = (rowField b).toNat := by
    revert b; decide
  simp [sourceCell, hindex, (rowField b).isLt]

/-- The source's shift and mask give the direction field. -/
theorem shift_and_eq_dirField (b : Byte) : (b >>> 4) &&& 0b11 = (dirField b).setWidth 8 := by
  revert b; decide

/-- On the three direction codes of a well-formed cell the source's step mapping is the output decoder's. -/
theorem sourceStep_of_dir {b : Byte} (h : dirField b ≠ 0b10#2) : sourceStep b = some (stepValue b) := by
  have hdir : ∀ d : BitVec 2, d ≠ 0b10#2 →
      (if d.setWidth 8 = 0b01#8 then some 1 else if d.setWidth 8 = 0b11#8 then some (-1)
        else if d.setWidth 8 = 0b00#8 then some 0 else none) = some (sext2 (dec d)) := by decide
  rw [sourceStep, shift_and_eq_dirField]
  exact hdir (dirField b) h

/-- From a well-formed cell of a well-formed table `process` answers the cell that `PROC` loads and its step value. -/
theorem sourceProcess_of_wf {R : Rom} (hR : romWf R) {b : Byte} (hb : cellWf b = true) (p : Pin) :
    sourceProcess R b p = some (R (rowField b) p, stepValue (R (rowField b) p)) := by
  obtain ⟨hrow, -, -⟩ := (cellWf_iff b).mp hb
  obtain ⟨-, -, hdir⟩ := (cellWf_iff _).mp (hR (rowField b) p)
  simp only [sourceProcess, sourceCell_eq_rom hrow, sourceStep_of_dir hdir]

/-- One more call of `process` in front of a run adds its step value. -/
theorem sourceRun_cons_of_wf {R : Rom} (hR : romWf R) {b b' : Byte} (hb : cellWf b = true) {p : Pin} {ps : List Pin}
    {n : Int} (h : sourceRun R (R (rowField b) p) ps = some (b', n)) :
    sourceRun R b (p :: ps) = some (b', stepValue (R (rowField b) p) + n) := by
  simp only [sourceRun, sourceProcess_of_wf hR hb, h]

/-! ### The statements -/

/-- Settles O26: with no cell listed each table is the free one, whose type carries `WF` and the SOURCE constraints. -/
theorem freeRomsAreAdmitted : Obligations.FreeRomsAreAdmitted := by
  refine ⟨admitted_nil, ?_⟩
  simp only [rom_nil]
  exact Config.roms.source

/-- Settles O53, by induction on the words: a `PROC` is one call of `process` on the registers' cell, and an `IDLE` is none;
the cell that a `PROC` loads is well-formed again, which the rest of the run needs. -/
theorem runCountsTheSourceSteps : Obligations.RunCountsTheSourceSteps := by
  intro ws
  induction ws with
  | nil =>
    intro s b v hu _ hb _ _ _
    exact ⟨b, 0, rfl, hb, rfl, hu⟩
  | cons w ws ih =>
    intro s b v hu hm hb hv hwf hws
    obtain ⟨hrst, hrest⟩ := List.forall_mem_cons.mp hws
    have hdec := decode_of_rst_false hrst
    rw [hostCount_observe_cons, run]
    cases hen : w.en with
    | true =>
      replace hdec : decode w = .proc w.pin := by simpa [hen] using hdec
      have hcell := hm v (rowField b) w.pin
      rw [tick_of_proc hu hm hb hv hdec, samples_cons_of_proc hdec]
      obtain ⟨b', n, hsrc, hq, hcount, hend⟩ :=
        ih (afterProc (s.mem.rom v (rowField b) w.pin) s).nextCycle _ v hu hm rfl hv hcell hrest
      exact ⟨b', _, sourceRun_cons_of_wf (hm v) hwf hsrc, hq, congrArg₂ (· + ·) (countOf_shown_of_valid hu rfl rfl) hcount,
        hend⟩
    | false =>
      replace hdec : decode w = .idle := by simpa [hen] using hdec
      rw [tick_of_idle hu hm hdec, samples_cons_of_idle hdec]
      obtain ⟨b', n, hsrc, hq, hcount, hend⟩ := ih (s.setValidQ false).nextCycle b v hu hm hb hv hwf hrest
      exact ⟨b', n, hsrc, hq, by rw [countOf_shown_of_invalid rfl, hcount, zero_add], hend⟩

end Sys2Proof.Machine
end

section
/-! SUPPORT. Proofs of the statements on the state (10_state.md): the state bound, the way the registers come to be written,
`valid_q`, and the states at reset and before it. First what one cycle does in each of these respects. -/

namespace Sys2Proof.Machine

/-! ### One cycle of a reset (41_control.md R100, R101) -/

/-- Every code but `0b11` names a variant (10_state.md R24). -/
theorem exists_variantOfCode {x : BitVec 2} (h : x ≠ 0b11#2) : ∃ v, variantOfCode x = some v := by
  have hsome : ∀ x : BitVec 2, x ≠ 0b11#2 → (variantOfCode x).isSome = true := by decide
  exact Option.isSome_iff_exists.mp (hsome x h)

/-- A word with `rst` does the reset to the code on `variant_sel`, whatever the code is. -/
theorem exec_decode_of_rst {w : OpWord} (h : w.rst = true) (s : State) :
    exec (decode w) s = resetTo w.variantSel s := by
  have hcode : ∀ x : BitVec 2, x = 0b00#2 ∨ x = 0b01#2 ∨ x = 0b10#2 ∨ x = 0b11#2 := by decide
  simp only [decode, h, if_true]
  rcases hcode w.variantSel with hx | hx | hx | hx <;> rw [hx] <;> rfl

/-- One edge with a legal reset word does the register writes of a reset cycle (10_state.md R30). -/
theorem tick_of_legalReset {s : State} {w : OpWord} (hu : s.unmarked = true) (hm : s.mem.admitted)
    (hrst : w.rst = true) (hres : isReserved w = false) :
    ∃ v, variantOfCode w.variantSel = some v ∧ tick w s = (loadReset v s).nextCycle := by
  obtain ⟨hf, hr⟩ := s.unmarked_iff.mp hu
  obtain ⟨v, hv⟩ := exists_variantOfCode (x := w.variantSel) (by simpa [isReserved, hrst] using hres)
  have hexec : exec (decode w) s = .next (loadReset v s) := by
    simp only [exec_decode_of_rst hrst, resetTo, hv]
  exact ⟨v, hv, tick_of_next hf hr hm hexec⟩

/-! ### `PROC` before the first reset (41_control.md R103) -/

/-- Without a row or a variant to read, `PROC` faults. -/
theorem exec_proc_of_unwritten {s : State} (h : s.stateQ = none ∨ s.variantQ = none) (p : Pin) :
    exec (.proc p) s = .fault (.unwrittenState s.cycle) := by
  rcases h with h | h
  · simp only [exec, execProc, h]
  · cases hb : s.stateQ <;> simp only [exec, execProc, h, hb]

/-! ### Outputs -/

/-- The outputs read `state_q` and `valid_q` alone (40_transition.md R93). -/
theorem outputs_congr {s s' : State} (hb : s.stateQ = s'.stateQ) (hq : s.validQ = s'.validQ) :
    s.outputs = s'.outputs := by
  simp only [State.outputs, State.stepO, State.stepValidO, State.dbgStateO, hb, hq]

theorem stepO_of_validQ_none {s : State} (h : s.validQ = none) : s.stepO = none := by
  simp only [State.stepO, h]

/-- A valid cycle shows a step only where there is a `state_q` to decode. -/
theorem stepO_of_stateQ_none {s : State} (hq : s.validQ = some true) (hb : s.stateQ = none) : s.stepO = none := by
  simp only [State.stepO, hq, hb, Option.map_none]

theorem dbgStateO_of_stateQ_none {s : State} (h : s.stateQ = none) : s.dbgStateO = none := by
  simp only [State.dbgStateO, h, Option.map_none]

/-! ### `valid_q` (10_state.md R25) -/

/-- Whatever the word decodes to, a next state holds its strobe: 0 in a reset, else `en`. -/
theorem exec_decode_validQ {w : OpWord} {s t : State} (h : exec (decode w) s = .next t) :
    t.validQ = some (!w.rst && w.en) := by
  cases hrst : w.rst with
  | true =>
    rw [exec_decode_of_rst hrst] at h
    obtain ⟨v, -, rfl⟩ := resetTo_next h
    rfl
  | false =>
    rw [decode_of_rst_false hrst] at h
    cases hen : w.en with
    | true =>
      rw [hen] at h
      obtain ⟨b, v, -, -, rfl⟩ := execProc_next h
      rfl
    | false =>
      rw [hen] at h
      cases h
      rfl

/-! ### The state bound (10_state.md R22) -/

/-- A state that holds a well-formed cell is within the bound. -/
theorem bounded_of_stateQ {s : State} {b : Byte} (h : s.stateQ = some b) (hb : cellWf b = true) : s.bounded := by
  intro b' h'
  cases h.symm.trans h'
  exact hb

/-- The bound speaks of `state_q` alone. -/
theorem bounded_congr {s t : State} (h : t.stateQ = s.stateQ) (hs : s.bounded) : t.bounded :=
  fun b hb => hs b (h ▸ hb)

/-- A reset cycle enters the bound from any state: it loads START. -/
theorem loadReset_bounded (v : Variant) (s : State) : (loadReset v s).bounded :=
  bounded_of_stateQ (loadReset_stateQ v s) rfl

/-- No operation leaves the bound: a reset loads START, `PROC` a cell of an admitted ROM, and `IDLE` nothing. -/
theorem exec_keeps_bounded {i : Instr} {s t : State} (hm : s.mem.admitted) (hs : s.bounded)
    (h : exec i s = .next t) : t.bounded := by
  rcases exec_cases h with ⟨v, -, rfl⟩ | ⟨p, b, v, -, -, -, rfl⟩ | ⟨-, rfl⟩
  · exact loadReset_bounded v s
  · exact bounded_of_stateQ (afterProc_stateQ _ s) (hm v (rowField b) p)
  · exact bounded_congr (s.setValidQ_stateQ false) hs

theorem step_keeps_bounded {s t : State} (hs : s.bounded) (h : step s = .next t) : t.bounded := by
  obtain ⟨-, -, hm, w, ws, u, -, hu, rfl⟩ := step_next h
  have hin : (s.setInputs ws).bounded := bounded_congr (s.setInputs_stateQ ws) hs
  exact bounded_congr u.nextCycle_stateQ (exec_keeps_bounded (s := s.setInputs ws) hm hin hu)

/-- An edge keeps the bound also where it only sets a mark. -/
theorem tick_keeps_bounded (w : OpWord) {s : State} (hs : s.bounded) : (tick w s).bounded := by
  rcases tick_cases w s with ⟨t, ht, heq⟩ | ⟨f, -, heq⟩ | ⟨r, -, heq⟩
  · exact heq ▸ step_keeps_bounded (bounded_congr (s.setInputs_stateQ _) hs) ht
  · exact heq ▸ bounded_congr (s.markFault_stateQ f) hs
  · exact heq ▸ bounded_congr (s.markRefused_stateQ r) hs

/-- What every edge keeps holds after every run. -/
theorem run_keeps {P : State → Prop} (hP : ∀ w s, P s → P (tick w s)) (ws : List OpWord) {s : State} (hs : P s) :
    P (run ws s) := by
  induction ws generalizing s with
  | nil => exact hs
  | cons w ws ih => exact ih (hP w s hs)

/-- Bit 3 decides whether the field `cur` names a row. -/
theorem nextField_le_seven {b : Byte} (h : b.getLsbD 3 = false) : (nextField b).toNat ≤ 7 := by
  revert b; decide

/-! ### How the registers come to be written (10_state.md R29) -/

/-- The relation speaks of the three registers alone. -/
theorem writtenTogether_congr {s t : State} (hb : t.stateQ = s.stateQ) (hv : t.variantQ = s.variantQ)
    (hq : t.validQ = s.validQ) (hs : s.writtenTogether) : t.writtenTogether := by
  simpa only [State.writtenTogether, hb, hv, hq] using hs

/-- With all three registers written the relation holds. -/
theorem writtenTogether_of_written {s : State} {b : Byte} {v : Variant} {x : Bool} (hb : s.stateQ = some b)
    (hv : s.variantQ = some v) (hq : s.validQ = some x) : s.writtenTogether := by
  simp [State.writtenTogether, hb, hv, hq]

/-- A reset writes all three registers, `PROC` needs two of them written and writes the third, and `IDLE` clears
`valid_q`. -/
theorem exec_keeps_writtenTogether {i : Instr} {s t : State} (hs : s.writtenTogether) (h : exec i s = .next t) :
    t.writtenTogether := by
  rcases exec_cases h with ⟨v, -, rfl⟩ | ⟨p, b, v, -, -, hv, rfl⟩ | ⟨-, rfl⟩
  · exact writtenTogether_of_written (loadReset_stateQ v s) (loadReset_variantQ v s) (loadReset_validQ v s)
  · exact writtenTogether_of_written (afterProc_stateQ _ s) hv (afterProc_validQ _ s)
  · obtain ⟨htogether, -, -⟩ := hs
    exact ⟨htogether, fun _ => rfl, fun hq => by cases hq⟩

/-! ### The statements -/

/-- Settles O47: no operation leaves the bound, and taking the word and ending the cycle write no register. -/
theorem stepKeepsTheStateBound : Obligations.StepKeepsTheStateBound :=
  fun _ _ hs h => step_keeps_bounded hs h

/-- Settles O50: the reset cycle enters the bound, every edge after it keeps it, and R22's fields are those of a well-formed
cell. -/
theorem stateBoundAfterReset : Obligations.StateBoundAfterReset := by
  intro s w ws b hu hm hrst hres hb
  obtain ⟨v, -, htick⟩ := tick_of_legalReset hu hm hrst hres
  have hstart : (tick w s).bounded := htick ▸ loadReset_bounded v s
  have hend : (run ws (tick w s)).bounded := run_keeps (fun w _ => tick_keeps_bounded w) ws hstart
  obtain ⟨hrow, hhi, -⟩ := (cellWf_iff b).mp (hend b hb)
  exact ⟨nextField_le_seven hrow, hrow, hhi⟩

/-- Settles O11: both load the cell of their common row, from tables that are equal. -/
theorem procReadsTheRowOnly : Obligations.ProcReadsTheRowOnly := by
  intro p s s' b b' hb hb' hrow hvar hsome hrom
  obtain ⟨v, hv⟩ := Option.isSome_iff_exists.mp hsome
  have hcell : s.mem.rom v (rowField b) p = s'.mem.rom v (rowField b') p := by
    rw [hrom v, rowField, hrow, ← rowField]
  have hstate := congrArg some hcell
  exact ⟨_, _, exec_proc_of_written hb hv p, exec_proc_of_written hb' (hvar ▸ hv) p, hstate, hvar, rfl,
    outputs_congr hstate rfl⟩

/-- Settles O44: the strobe of the word that the step took. -/
theorem validFollowsTheStrobe : Obligations.ValidFollowsTheStrobe := by
  intro s t w ws hin h
  obtain ⟨-, -, -, w', ws', u, hin', hu, rfl⟩ := step_next h
  cases hin.symm.trans hin'
  exact u.nextCycle_validQ.trans (exec_decode_validQ hu)

/-- Settles O48: taking the word and ending the cycle write no register, and `exec` keeps the relation. -/
theorem registersStayWrittenTogether : Obligations.RegistersStayWrittenTogether := by
  intro s t hs h
  obtain ⟨-, -, -, w, ws, u, -, hu, rfl⟩ := step_next h
  have hin : (s.setInputs ws).writtenTogether := writtenTogether_congr rfl rfl rfl hs
  exact writtenTogether_congr (s := u) rfl rfl rfl (exec_keeps_writtenTogether hin hu)

/-- Settles O1: each field as the definition of `State.reset` gives it, and the outputs that those registers show. -/
theorem resetStateValues : Obligations.ResetStateValues :=
  ⟨rfl, rfl, rfl, rfl, rfl, rfl, rfl⟩

/-- Settles O2: the registers are empty by definition, `PROC` finds nothing to read, `IDLE` is one write, and an output that
reads an empty register has no value. -/
theorem unwrittenRegistersHaveNoValue : Obligations.UnwrittenRegistersHaveNoValue :=
  ⟨⟨rfl, rfl, rfl⟩, fun p _ h => exec_proc_of_unwritten h p, fun _ => rfl, fun _ => stepO_of_validQ_none,
    fun _ => stepO_of_stateQ_none, fun _ => dbgStateO_of_stateQ_none⟩

/-- Settles O49: START is a well-formed cell and all three registers hold a value at reset; none does before it. -/
theorem invariantsHoldAtReset : Obligations.InvariantsHoldAtReset := by
  have hbounded : State.reset.bounded := bounded_of_stateQ (b := 0x04) rfl rfl
  refine ⟨hbounded, writtenTogether_of_written rfl rfl rfl, ⟨rfl, admitted_nil, rfl, hbounded⟩, ?_, ?_⟩
  · intro b hb
    cases hb
  · simp [State.writtenTogether, State.unwritten]

end Sys2Proof.Machine
end

section
/-! SUPPORT. Proofs of the statements on the ROMs (20_memory.md): their addresses, the check of a configuration, and what the
constraints on the tables make a run of samples show. First what a read at each address, a refused cycle and a run of samples
do, whatever the tables hold. -/

namespace Sys2Proof.Machine

/-! ### Addresses (20_memory.md R42, R44) -/

theorem toNat_romAddr (s : Row) (p : Pin) : (romAddr s p).toNat = 4 * s.toNat + p.toNat := by
  revert s p; decide

theorem toNat_flatAddr (v : Variant) (a : BitVec 5) :
    (flatAddr v a).toNat = 0x20 * (variantCode v).toNat + a.toNat := by
  revert a; cases v <;> decide

/-- The byte at a flattened address, with the address written as a sum. -/
theorem byte_eq_rom (m : Memory) (v : Variant) (s : Row) (p : Pin) :
    m.byte (0x20 * (variantCode v).toNat + 4 * s.toNat + p.toNat) = some (m.rom v s p) := by
  rw [Nat.add_assoc, ← toNat_romAddr, ← toNat_flatAddr, byte_flatAddr]
  rfl

/-- Upper bits that name a variant make an address the flattened one of a cell of that variant. -/
theorem flatAddr_of_variantOfCode {a : BitVec 7} {v : Variant} (h : variantOfCode (a.extractLsb' 5 2) = some v) :
    flatAddr v (a.extractLsb' 0 5) = a := by
  revert a; cases v <;> decide

/-- Upper bits name a variant exactly below the hole. -/
theorem variantOfCode_eq_none_iff (a : BitVec 7) : variantOfCode (a.extractLsb' 5 2) = none ↔ 0x60 ≤ a.toNat := by
  revert a; decide

/-- Below the hole the flattened view reads the byte at the address. -/
theorem readFlat_of_lt (m : Memory) {a : BitVec 7} (h : a.toNat < 0x60) (n : Nat) :
    ∃ b, readFlat m a n = .ok b ∧ m.byte a.toNat = some b := by
  cases hv : variantOfCode (a.extractLsb' 5 2) with
  | none => exact absurd ((variantOfCode_eq_none_iff a).mp hv) (Nat.not_le.mpr h)
  | some v =>
    refine ⟨romRead m v (a.extractLsb' 0 5), by simp only [readFlat, hv], ?_⟩
    rw [← byte_flatAddr, flatAddr_of_variantOfCode hv]

/-- In the hole the flattened view refuses. -/
theorem readFlat_of_le (m : Memory) {a : BitVec 7} (h : 0x60 ≤ a.toNat) (n : Nat) :
    readFlat m a n = .error (.reservedVariant n) := by
  simp only [readFlat, (variantOfCode_eq_none_iff a).mpr h]

theorem byte_of_le (m : Memory) {a : Nat} (h : 0x60 ≤ a) : m.byte a = none := by
  simp only [Memory.byte, (unlisted_eq_none_iff a).mpr h]

/-! ### The order of the check (20_memory.md R44, R47; log 7) -/

/-- The flattened address of a cell. -/
def cellAddr (c : Variant × Row × Pin) : Nat := (flatAddr c.1 (romAddr c.2.1 c.2.2)).toNat

/-- The check goes through the addresses in order. -/
theorem allCells_map_cellAddr : allCells.map cellAddr = List.range 0x60 := by decide

theorem allCells_pairwise : allCells.Pairwise fun c d => cellAddr c < cellAddr d :=
  List.pairwise_map.mp (allCells_map_cellAddr ▸ List.pairwise_lt_range)

/-- In a list whose values rise, every element below the first hit fails the test. -/
theorem eq_false_of_lt_find? {α : Type} {f : α → Nat} {q : α → Bool} {l : List α} {c d : α}
    (hl : l.Pairwise fun x y => f x < f y) (hc : l.find? q = some c) (hd : d ∈ l) (hlt : f d < f c) :
    q d = false := by
  obtain ⟨-, before, after, rfl, hbefore⟩ := List.find?_eq_some_iff_append.mp hc
  obtain ⟨-, hafter, -⟩ := List.pairwise_append.mp hl
  rcases List.mem_append.mp hd with hd | hd
  · simpa using hbefore d hd
  · rcases List.mem_cons.mp hd with rfl | hd
    · exact absurd hlt (Nat.lt_irrefl _)
    · exact absurd hlt (Nat.lt_asymm ((List.pairwise_cons.mp hafter).1 d hd))

/-- Every cell before the one that the check names is well-formed. -/
theorem cellWf_of_lt_firstIllFormed {m : Memory} {c : Variant × Row × Pin} (h : firstIllFormed m = some c)
    (v : Variant) (s : Row) (p : Pin) (hlt : cellAddr (v, s, p) < cellAddr c) : cellWf (m.rom v s p) = true :=
  (failsWf_eq_false_iff m v s p).mp (eq_false_of_lt_find? allCells_pairwise h (mem_allCells _) hlt)

/-! ### Refused cycles (60_exceptions.md R112, R115) -/

/-- The one refusal of an operation is that of the reserved reset. -/
theorem exec_refused {i : Instr} {s : State} {r : Refusal} (h : exec i s = .refused r) :
    r = .reservedVariant s.cycle := by
  cases i with
  | resetFull => cases h
  | resetHalf => cases h
  | resetTri => cases h
  | resetReserved => cases h; rfl
  | proc p =>
    change execProc p s = _ at h
    unfold execProc at h
    split at h <;> cases h
  | idle => cases h

/-- A cycle in an admitted configuration is not refused for an ill-formed ROM. -/
theorem step_ne_illFormedRom {s : State} (hu : s.unmarked = true) (hm : s.mem.admitted) (v : Variant) (r : Row)
    (c : Pin) : step s ≠ .refused (.illFormedRom v r c) := by
  obtain ⟨hf, hr⟩ := s.unmarked_iff.mp hu
  intro h
  cases hin : s.inputs with
  | nil => simp [step, fetch, hf, hr, (firstIllFormed_eq_none_iff _).mpr hm, hin] at h
  | cons w ws =>
    simp only [step, fetch_of_ready hf hr hm hin] at h
    cases hexec : exec (decode w) (s.setInputs ws) with
    | next t => rw [hexec] at h; cases h
    | fault f => rw [hexec] at h; cases h
    | refused x =>
      rw [hexec, exec_refused hexec] at h
      cases h

/-- A cycle in another configuration is refused for the cell that the check names. -/
theorem step_of_firstIllFormed {s : State} (hu : s.unmarked = true) {v : Variant} {r : Row} {c : Pin}
    (h : firstIllFormed s.mem = some (v, r, c)) : step s = .refused (.illFormedRom v r c) := by
  obtain ⟨hf, hr⟩ := s.unmarked_iff.mp hu
  simp only [step, fetch, hf, hr, h]

/-! ### No write to a ROM (20_memory.md R40) -/

theorem exec_keeps_mem {i : Instr} {s t : State} (h : exec i s = .next t) : t.mem = s.mem := by
  rcases exec_cases h with ⟨v, -, rfl⟩ | ⟨p, b, v, -, -, -, rfl⟩ | ⟨-, rfl⟩ <;> rfl

theorem step_keeps_mem {s t : State} (h : step s = .next t) : t.mem = s.mem := by
  obtain ⟨-, -, -, w, ws, u, -, hu, rfl⟩ := step_next h
  exact exec_keeps_mem (s := s.setInputs ws) (t := u) hu

@[simp] theorem tick_mem (w : OpWord) (s : State) : (tick w s).mem = s.mem := by
  rcases tick_cases w s with ⟨t, ht, heq⟩ | ⟨f, -, heq⟩ | ⟨r, -, heq⟩ <;> rw [heq]
  · exact step_keeps_mem (s := s.setInputs (w :: s.inputs)) ht
  · rfl
  · rfl

@[simp] theorem run_mem (ws : List OpWord) (s : State) : (run ws s).mem = s.mem :=
  run_keeps (P := fun t => t.mem = s.mem) (fun w t ht => (tick_mem w t).trans ht) ws rfl

/-! ### The fields of a cell (20_memory.md R43, R47) -/

/-- Under `WF` the next field is the row that the next `PROC` reads. -/
theorem nextField_eq_rowField {b : Byte} (h : cellWf b = true) : nextField b = (rowField b).setWidth 4 := by
  revert b; decide

/-- Under `WF` the next field and the direction are the whole cell. -/
theorem cell_eq_dir_append_next {b : Byte} (h : cellWf b = true) : b = 0b00#2 ++ dirField b ++ nextField b := by
  revert b; decide

/-! ### One `PROC` and its outputs (40_transition.md R88, R93) -/

@[simp] theorem afterProc_stepO (b : Byte) (s : State) : (afterProc b s).stepO = some (dec (dirField b)) := rfl
@[simp] theorem afterProc_stepValidO (b : Byte) (s : State) : (afterProc b s).stepValidO = some true := rfl
@[simp] theorem afterProc_dbgStateO (b : Byte) (s : State) : (afterProc b s).dbgStateO = some (nextField b) := rfl

theorem follow_of_row {b : Byte} {r : Row} (h : rowField b = r) (R : Rom) (p : Pin) : follow R b p = R r p := by
  rw [follow, h]

/-- What a cycle shows after a `PROC` that loaded the cell. -/
def procOutputs (b : Byte) : Outputs := ⟨some (dec (dirField b)), some true, some (nextField b)⟩

/-- An unmarked state of an admitted configuration whose variant has the table `R` and whose `state_q` holds `b`: where a
`PROC` finds all it needs. -/
structure State.StandsAt (s : State) (v : Variant) (R : Rom) (b : Byte) : Prop where
  unmarked : s.unmarked = true
  admitted : s.mem.admitted
  variantQ : s.variantQ = some v
  rom : s.mem.rom v = R
  stateQ : s.stateQ = some b

/-- The cells that the samples load, one after the other, from the cell `b` on. -/
def loadedCells (R : Rom) (b : Byte) : List Pin → List Byte
  | [] => []
  | p :: ps => follow R b p :: loadedCells R (follow R b p) ps

/-- The cells of a detent, each read in the row that the one before leads to. -/
theorem loadedCells_four {R : Rom} {b c₁ c₂ c₃ c₄ : Byte} {p q r t : Pin} (h₁ : R (rowField b) p = c₁)
    (h₂ : R (rowField c₁) q = c₂) (h₃ : R (rowField c₂) r = c₃) (h₄ : R (rowField c₃) t = c₄) :
    loadedCells R b [p, q, r, t] = [c₁, c₂, c₃, c₄] := by
  subst h₁ h₂ h₃ h₄
  rfl

section
variable {s : State} {v : Variant} {R : Rom} {b : Byte} (h : s.StandsAt v R b)
include h

theorem State.StandsAt.dbgStateO_eq : s.dbgStateO = some (nextField b) := by
  rw [State.dbgStateO, h.stateQ]
  rfl

theorem State.StandsAt.dbgStateO_ne {n : BitVec 4} (hn : nextField b ≠ n) : s.dbgStateO ≠ some n := by
  rw [h.dbgStateO_eq]
  exact fun heq => hn (Option.some.inj heq)

theorem State.StandsAt.tick_eq {w : OpWord} {p : Pin} (hd : decode w = .proc p) :
    tick w s = (afterProc (follow R b p) s).nextCycle := by
  obtain ⟨hu, hm, hv, rfl, hb⟩ := h
  exact tick_of_proc hu hm hb hv hd

/-- A sample leads to the cell that follows, in the same table. -/
theorem State.StandsAt.after_tick {w : OpWord} {p : Pin} (hd : decode w = .proc p) :
    (tick w s).StandsAt v R (follow R b p) := by
  rw [h.tick_eq hd]
  exact ⟨h.unmarked, h.admitted, h.variantQ, h.rom, rfl⟩

theorem State.StandsAt.tick_outputs {w : OpWord} {p : Pin} (hd : decode w = .proc p) :
    (tick w s).outputs = procOutputs (follow R b p) := by
  rw [h.tick_eq hd]
  rfl

theorem State.StandsAt.tick_stepValidO {w : OpWord} {p : Pin} (hd : decode w = .proc p) :
    (tick w s).stepValidO = some true :=
  congrArg Outputs.stepValidO (h.tick_outputs hd)

theorem State.StandsAt.tick_stepO {w : OpWord} {p : Pin} (hd : decode w = .proc p) :
    (tick w s).stepO = some (dec (dirField (follow R b p))) :=
  congrArg Outputs.stepO (h.tick_outputs hd)

/-! ### A run of samples (70_reset_and_hazards.md R136) -/

/-- Each cycle of a run of samples shows the cell that it loaded. -/
theorem State.StandsAt.observe_eq {ws : List OpWord} {ps : List Pin} (hd : ws.map decode = ps.map .proc) :
    observe ws s = (loadedCells R b ps).map fun c => some (procOutputs c) := by
  induction ps generalizing ws s b with
  | nil =>
    obtain rfl := List.map_eq_nil_iff.mp hd
    rfl
  | cons p ps ih =>
    obtain ⟨w, ws, rfl, hw, hws⟩ := List.map_eq_cons_iff.mp hd
    have hnext := h.after_tick hw
    rw [observe, ih hnext hws, State.shown, if_pos hnext.unmarked, h.tick_outputs hw]
    rfl

/-- A run of samples ends at the cell that it loaded last. -/
theorem State.StandsAt.after_run {ws : List OpWord} {ps : List Pin} (hd : ws.map decode = ps.map .proc) :
    (run ws s).StandsAt v R (ps.foldl (follow R) b) := by
  induction ps generalizing ws s b with
  | nil =>
    obtain rfl := List.map_eq_nil_iff.mp hd
    exact h
  | cons p ps ih =>
    obtain ⟨w, ws, rfl, hw, hws⟩ := List.map_eq_cons_iff.mp hd
    exact ih (h.after_tick hw) hws

/-- The host counts the step value of each loaded cell. -/
theorem State.StandsAt.map_countOf {ws : List OpWord} {ps : List Pin} (hd : ws.map decode = ps.map .proc) :
    (observe ws s).map countOf = (loadedCells R b ps).map stepValue := by
  rw [h.observe_eq hd, List.map_map]
  rfl

end

/-! ### The detent of Full-Step, in either direction (20_memory.md R50, R51) -/

/-- From START the four samples load cells whose directions are 0, 0, 0 and `d`, the last one with next field START. -/
def detentSeq (F : Rom) (p q r t : Pin) (d : BitVec 2) : Prop :=
  dirField (F 4 p) = 0b00 ∧ dirField (follow F (F 4 p) q) = 0b00 ∧
    dirField (follow F (follow F (F 4 p) q) r) = 0b00 ∧
    dirField (follow F (follow F (follow F (F 4 p) q) r) t) = d ∧
    nextField (follow F (follow F (follow F (F 4 p) q) r) t) = 4

theorem fullSeqCw_iff (F : Rom) : fullSeqCw F ↔ detentSeq F 2 0 1 3 0b01 := Iff.rfl

theorem fullSeqCcw_iff (F : Rom) : fullSeqCcw F ↔ detentSeq F 1 0 2 3 0b11 := Iff.rfl

/-- From row 4 the samples of a detent add no step but the last one's, and end in START. -/
theorem State.StandsAt.detent {s : State} {v : Variant} {F : Rom} {b : Byte} (hs : s.StandsAt v F b)
    (hrow : rowField b = 4) {p q r t : Pin} {d : BitVec 2} (hseq : detentSeq F p q r t d) {ws : List OpWord}
    (hd : ws.map decode = [p, q, r, t].map .proc) :
    (observe ws s).map countOf = [0, 0, 0, sext2 (dec d)] ∧ (run ws s).dbgStateO = some 4 ∧
      (run ws s).unmarked = true := by
  obtain ⟨h1, h2, h3, h4, hend⟩ := hseq
  have hstart := follow_of_row hrow F p
  refine ⟨?_, ?_, (hs.after_run hd).unmarked⟩
  · rw [hs.map_countOf hd]
    simp only [loadedCells, List.map_cons, List.map_nil, stepValue, hstart, h1, h2, h3, h4]
    rfl
  · rw [(hs.after_run hd).dbgStateO_eq]
    simp only [List.foldl_cons, List.foldl_nil, hstart, hend]

/-- Where the last direction of a detent occurs in row `k` only, the third cell leads to row `k`, and the last cell is
fixed. -/
theorem detentSeq_final {F : Rom} (hwf : romWf F) {p q r t : Pin} {d : BitVec 2} (hseq : detentSeq F p q r t d)
    {k : Row} (hk : ∀ s, dirField (F s t) = d → s = k) :
    nextField (follow F (follow F (F 4 p) q) r) = k.setWidth 4 ∧ F k t = 0b00#2 ++ d ++ 4#4 := by
  obtain ⟨-, -, -, hdir, hnext⟩ := hseq
  have hrow : rowField (follow F (follow F (F 4 p) q) r) = k := hk _ hdir
  rw [follow_of_row hrow] at hdir hnext
  refine ⟨?_, ?_⟩
  · have hthird : cellWf (follow F (follow F (F 4 p) q) r) = true := hwf _ r
    rw [nextField_eq_rowField hthird, hrow]
  · rw [cell_eq_dir_append_next (hwf k t), hdir, hnext]
    rfl

/-! ### Full-Step under FULL_FIRE (20_memory.md R52) -/

/-- The direction +1 occurs in row 7 only. -/
theorem eq_seven_of_fires {F : Rom} (h : fullFire F) {s : Row} {p : Pin} (hd : dirField (F s p) = 0b01#2) : s = 7 := by
  rcases h s p (by rw [hd]; decide) with ⟨-, ⟨hs, -⟩ | ⟨-, hd'⟩⟩
  · exact hs
  · exact absurd (hd.symm.trans hd') (by decide)

/-- The direction -1 occurs in row 1 only. -/
theorem eq_one_of_fires {F : Rom} (h : fullFire F) {s : Row} {p : Pin} (hd : dirField (F s p) = 0b11#2) : s = 1 := by
  rcases h s p (by rw [hd]; decide) with ⟨-, ⟨-, hd'⟩ | ⟨hs, -⟩⟩
  · exact absurd (hd.symm.trans hd') (by decide)
  · exact hs

/-- A cell of any other row carries no direction. -/
theorem dirField_of_not_final {F : Rom} (h : fullFire F) {s : Row} (h7 : s ≠ 7) (h1 : s ≠ 1) (p : Pin) :
    dirField (F s p) = 0b00#2 := by
  by_contra hd
  rcases h s p hd with ⟨-, ⟨hs, -⟩ | ⟨hs, -⟩⟩
  · exact h7 hs
  · exact h1 hs

theorem stepValue_of_dirField {b : Byte} (h : dirField b = 0b00#2) : stepValue b = 0 := by
  rw [stepValue, h]
  rfl

/-! ### The statements -/

/-- Settles O24: the flattened address is a sum of the code, the row and the column; the hole is where the upper bits name no
variant. -/
theorem romAddressMap : Obligations.RomAddressMap := by
  intro m
  refine ⟨fun v s p => ⟨toNat_romAddr s p, rfl⟩, fun s p => ⟨?_, ?_, ?_⟩, fun a n ha => readFlat_of_lt m ha n,
    fun a n ha => ⟨readFlat_of_le m ha n, byte_of_le m ha⟩⟩
  · exact byte_eq_rom m .full s p
  · exact byte_eq_rom m .half s p
  · exact byte_eq_rom m .tri s p

/-- Settles O25: a cycle asks the check first, which goes through the cells in the order of their addresses. -/
theorem illFormedRomIsRefused : Obligations.IllFormedRomIsRefused := by
  refine ⟨cellWf_iff, fun R => Iff.rfl, fun s hu => ⟨step_ne_illFormedRom hu, fun hm => ?_⟩⟩
  have hsome : firstIllFormed s.mem ≠ none := fun h => hm ((firstIllFormed_eq_none_iff _).mp h)
  obtain ⟨⟨v, r, c⟩, hfirst⟩ := Option.ne_none_iff_exists'.mp hsome
  exact ⟨v, r, c, step_of_firstIllFormed hu hfirst, firstIllFormed_some _ v r c hfirst,
    fun v' r' c' hlt => cellWf_of_lt_firstIllFormed hfirst v' r' c' hlt⟩

/-- Settles O27: no edge writes a ROM, so no run does. -/
theorem romsAreNeverWritten : Obligations.RomsAreNeverWritten :=
  fun ws s => ⟨run_mem ws s, fun a => by rw [run_mem]⟩

/-- Settles O28: the four words are the samples of the detent that FULL_SEQ_CW speaks of. -/
theorem fullStepClockwiseDetent : Obligations.FullStepClockwiseDetent := by
  intro s b hu hm hv hb hrow hseq
  have hs : s.StandsAt .full (s.mem.rom .full) b := ⟨hu, hm, hv, rfl, hb⟩
  exact hs.detent hrow ((fullSeqCw_iff _).mp hseq) rfl

/-- Settles O29: the four words are the samples of the detent that FULL_SEQ_CCW speaks of. -/
theorem fullStepCounterClockwiseDetent : Obligations.FullStepCounterClockwiseDetent := by
  intro s b hu hm hv hb hrow hseq
  have hs : s.StandsAt .full (s.mem.rom .full) b := ⟨hu, hm, hv, rfl, hb⟩
  exact hs.detent hrow ((fullSeqCcw_iff _).mp hseq) rfl

/-- Settles O30: FULL_FIRE speaks of the very cell that `PROC` loads. -/
theorem fullStepFiresFromFinalRows : Obligations.FullStepFiresFromFinalRows := by
  intro s b p hv hb hfire
  refine ⟨_, s.mem.rom .full (rowField b) p, exec_proc_of_written hb hv p, rfl, fun hd => ?_, fun h7 h1 => ?_⟩
  · obtain ⟨hnext, hdir⟩ := hfire (rowField b) p hd
    refine ⟨hnext, by rw [afterProc_dbgStateO, hnext], ?_⟩
    rcases hdir with ⟨hrow, hdir⟩ | ⟨hrow, hdir⟩
    · exact .inl ⟨hrow, hdir, by rw [afterProc_stepO, hdir]; rfl⟩
    · exact .inr ⟨hrow, hdir, by rw [afterProc_stepO, hdir]; rfl⟩
  · have hdir : dirField (s.mem.rom .full (rowField b) p) = 0b00#2 := dirField_of_not_final hfire h7 h1 p
    rw [afterProc_stepO, hdir]
    rfl

/-- Settles O31: the last cell of each detent carries a direction, so FULL_FIRE gives the row it stands in. -/
theorem fullStepFinalCells : Obligations.FullStepFinalCells := by
  intro F hwf hcw hccw hfire
  obtain ⟨hnext7, hcell7⟩ := detentSeq_final hwf ((fullSeqCw_iff F).mp hcw) fun _ => eq_seven_of_fires hfire
  obtain ⟨hnext1, hcell1⟩ := detentSeq_final hwf ((fullSeqCcw_iff F).mp hccw) fun _ => eq_one_of_fires hfire
  exact ⟨hnext7, hcell7, hnext1, hcell1⟩

/-- Settles O32: neither START nor, by FULL_NOISE, the row that the first sample 3 leads to is a final row, so no cell that is
loaded carries a direction. -/
theorem bounceAtTheDetentAddsNothing : Obligations.BounceAtTheDetentAddsNothing := by
  intro s b hu hm hv hb hrow hfire hnoise
  obtain ⟨⟨h0ne3, h0ne5⟩, h3ne1, h3ne3, h3ne5, h3ne7⟩ := hnoise
  have hs : s.StandsAt .full (s.mem.rom .full) b := ⟨hu, hm, hv, rfl, hb⟩
  have hload : ∀ p, follow (s.mem.rom .full) b p = s.mem.rom .full 4 p := follow_of_row hrow _
  have hdec3 : decode 0x07 = .proc 3 := rfl
  have hdec0 : decode 0x04 = .proc 0 := rfl
  have hstart : ∀ p, dirField (s.mem.rom .full 4 p) = 0b00#2 :=
    dirField_of_not_final hfire (by decide) (by decide)
  have hnext := nextField_eq_rowField (hm .full 4 3)
  have hsecond : dirField (follow (s.mem.rom .full) (s.mem.rom .full 4 3) 3) = 0b00#2 :=
    dirField_of_not_final hfire (fun h7 => h3ne7 (by rw [hnext, h7]; rfl)) (fun h1 => h3ne1 (by rw [hnext, h1]; rfl)) 3
  have hcounts : (observe [0x07, 0x07] s).map countOf = [0, 0] := by
    rw [hs.map_countOf (ps := [3, 3]) rfl]
    simp only [loadedCells, hload, List.map_cons, List.map_nil, stepValue_of_dirField (hstart 3),
      stepValue_of_dirField hsecond]
  have hs3 : (tick 0x07 s).StandsAt .full (s.mem.rom .full) (s.mem.rom .full 4 3) := hload 3 ▸ hs.after_tick hdec3
  have hs0 : (tick 0x04 s).StandsAt .full (s.mem.rom .full) (s.mem.rom .full 4 0) := hload 0 ▸ hs.after_tick hdec0
  refine ⟨by rw [hostCount, hcounts]; rfl, hcounts, (hs3.after_tick hdec3).unmarked, hs3.tick_stepValidO hdec3, hs3.stateQ,
    hs.tick_stepValidO hdec3, hs0.unmarked, hs0.stateQ, hs.tick_stepValidO hdec0, ?_, ?_, ?_, ?_, ?_⟩
  · rw [hs.tick_stepO hdec0, hload, hstart]
    rfl
  · exact hs3.dbgStateO_ne h3ne3
  · exact hs3.dbgStateO_ne h3ne5
  · exact hs0.dbgStateO_ne h0ne3
  · exact hs0.dbgStateO_ne h0ne5

/-- Settles O33: FULL_PATH gives the four cells that each sequence loads, each in the row that the one before leads to. -/
theorem fullStepPathOfBothDetents : Obligations.FullStepPathOfBothDetents := by
  intro s b hu hm hv hb hrow hpath
  obtain ⟨⟨hcw1, hcw2, hcw3, hcw4⟩, hccw1, hccw2, hccw3, hccw4⟩ := hpath
  have hs : s.StandsAt .full (s.mem.rom .full) b := ⟨hu, hm, hv, rfl, hb⟩
  have hload : ∀ p, s.mem.rom .full (rowField b) p = s.mem.rom .full 4 p := follow_of_row (r := 4) hrow (s.mem.rom .full)
  have hcw : loadedCells (s.mem.rom .full) b [2, 0, 1, 3] = [0x05, 0x06, 0x07, 0x14] :=
    loadedCells_four ((hload 2).trans hcw1) hcw2 hcw3 hcw4
  have hccw : loadedCells (s.mem.rom .full) b [1, 0, 2, 3] = [0x03, 0x02, 0x01, 0x34] :=
    loadedCells_four ((hload 1).trans hccw1) hccw2 hccw3 hccw4
  constructor
  · rw [hs.observe_eq (ps := [2, 0, 1, 3]) rfl, hcw]
    rfl
  · rw [hs.observe_eq (ps := [1, 0, 2, 3]) rfl, hccw]
    rfl

/-- Settles O16: the third condition of `WF` leaves three of the four codes. -/
theorem wellFormedCellsHaveThreeDirections : Obligations.WellFormedCellsHaveThreeDirections := by
  intro R hR s p
  obtain ⟨-, -, hdir⟩ := (cellWf_iff _).mp (hR s p)
  have hcode : ∀ d : BitVec 2, d ≠ 0b10#2 → d = 0b00#2 ∨ d = 0b01#2 ∨ d = 0b11#2 := by decide
  exact hcode _ hdir

/-- Settles O34: the two cells of HALF_ASYM are those that `PROC` loads. -/
theorem halfStepAsymmetry : Obligations.HalfStepAsymmetry := by
  intro s b hv hb ⟨h2, h6⟩
  refine ⟨fun hrow => ⟨_, exec_proc_of_written hb hv 2, ?_⟩, fun hrow => ⟨_, exec_proc_of_written hb hv 1, ?_⟩⟩
  · have hrow : rowField b = 2 := hrow
    rw [afterProc_dbgStateO, hrow, h2]
  · have hrow : rowField b = 6 := hrow
    rw [afterProc_dbgStateO, hrow, h6]

/-- Settles O35: `PROC` loads a cell of row 2 or 6, of which TRI_ROWS gives the next field and the READING D11 the byte. -/
theorem tristateInvalidRows : Obligations.TristateInvalidRows := by
  intro s b p hv hb hrow
  have hrow : rowField b = 2 ∨ rowField b = 6 := hrow
  refine ⟨fun htri => ⟨_, exec_proc_of_written hb hv p, ?_⟩, fun htri => ⟨_, exec_proc_of_written hb hv p, ?_⟩⟩
  · obtain ⟨h2, h6⟩ := htri p
    rw [afterProc_dbgStateO]
    rcases hrow with hrow | hrow
    · rw [hrow, h2]
    · rw [hrow, h6]
  · obtain ⟨h2, h6⟩ := htri p
    have hcell : s.mem.rom .tri (rowField b) p = 0x00 := by
      rcases hrow with hrow | hrow
      · rw [hrow, h2]
      · rw [hrow, h6]
    rw [afterProc_stateQ, afterProc_stepO, hcell]
    exact ⟨rfl, rfl⟩

/-- Settles O36: TRI_PIN1 speaks of the cell that `PROC` loads in every row. -/
theorem tristatePinOneGivesNoStep : Obligations.TristatePinOneGivesNoStep := by
  intro s b hv hb hpin
  refine ⟨_, exec_proc_of_written hb hv 1, afterProc_stateQ _ s, afterProc_stepValidO _ s, ?_⟩
  rw [afterProc_stepO, hpin]
  rfl

end Sys2Proof.Machine
end

section
/-! SUPPORT. Proofs of the statements on the encoding (30_encoding.md): the priority of the decoder, the rows of the opcode
map, and the encoder with its inverse. First what the decoder reads of a word, and which row of the map a word lies in. -/

namespace Sys2Proof.Machine

/-! ### Decoding with a reset (30_encoding.md R72, R74) -/

/-- The reset that a variant code asks for: that of its variant, or the reserved one where the code names none. -/
def resetOfCode (c : BitVec 2) : Instr := (variantOfCode c).elim .resetReserved resetInstr

theorem resetOfCode_cases (c : BitVec 2) : resetOfCode c = .resetFull ∨ resetOfCode c = .resetHalf ∨
    resetOfCode c = .resetTri ∨ resetOfCode c = .resetReserved := by
  revert c; decide

theorem resetOfCode_inj {c d : BitVec 2} : resetOfCode c = resetOfCode d ↔ c = d := by
  revert c d; decide

theorem resetOfCode_ne_proc (c : BitVec 2) (p : Pin) : resetOfCode c ≠ .proc p := by
  revert c p; decide

theorem resetOfCode_ne_idle (c : BitVec 2) : resetOfCode c ≠ .idle := by
  revert c; decide

/-- A word with `rst` is the reset to the code on `variant_sel`, whatever its other bits hold. -/
theorem decode_of_rst {w : OpWord} (h : w.rst = true) : decode w = resetOfCode w.variantSel := by
  simp only [decode, h, if_true]
  generalize w.variantSel = c
  revert c; decide

theorem decode_of_en {w : OpWord} (hr : w.rst = false) (he : w.en = true) : decode w = .proc w.pin := by
  rw [decode_of_rst_false hr, if_pos he]

theorem decode_of_en_false {w : OpWord} (hr : w.rst = false) (he : w.en = false) : decode w = .idle := by
  rw [decode_of_rst_false hr, he]
  rfl

/-- A word without `rst` is no reset. -/
theorem decode_ne_resetOfCode {w : OpWord} (h : w.rst = false) (c : BitVec 2) : decode w ≠ resetOfCode c := by
  rw [decode_of_rst_false h]
  split
  · exact (resetOfCode_ne_proc c w.pin).symm
  · exact (resetOfCode_ne_idle c).symm

/-- Two words without `rst` decode alike when `en` agrees and, where it is set, the sample. -/
theorem decode_eq_iff_of_rst_false {w w' : OpWord} (h : w.rst = false) (h' : w'.rst = false) :
    decode w = decode w' ↔ w.en = w'.en ∧ (w.en = true → w.pin = w'.pin) := by
  rw [decode_of_rst_false h, decode_of_rst_false h']
  cases w.en <;> cases w'.en <;> simp

/-! ### The rows of the opcode map (30_encoding.md R75) -/

theorem holds_iff_and_mask_eq (r : OpcodeRow) (w : OpWord) : r.holds w = true ↔ w &&& r.mask = r.value :=
  beq_iff_eq

theorem opcodeRow_mem_opcodeMap (i : Instr) : opcodeRow i ∈ opcodeMap := by
  cases i <;> simp [opcodeRow, opcodeMap]

/-- Of the rows of the map, the one that holds of a word is that of the operation which the word decodes to. -/
theorem holds_iff_eq_opcodeRow_decode {r : OpcodeRow} (hr : r ∈ opcodeMap) (w : OpWord) :
    r.holds w = true ↔ r = opcodeRow (decode w) := by
  have hrows : ∀ r ∈ opcodeMap, ∀ w : OpWord, r.holds w = true ↔ r = opcodeRow (decode w) := by decide
  exact hrows r hr w

/-- Each row has one operation, but for the operand of `PROC`. -/
theorem opcodeRow_eq_iff {i j : Instr} :
    opcodeRow i = opcodeRow j ↔ i = j ∨ (∃ p, i = .proc p) ∧ ∃ q, j = .proc q := by
  cases i <;> cases j <;> simp [opcodeRow]

/-- A word that decodes to a `PROC` decodes to that of its own sample (30_encoding.md R73). -/
theorem pin_of_decode_eq_proc {w : OpWord} {p : Pin} (h : decode w = .proc p) : w.pin = p := by
  cases hr : w.rst with
  | true => exact absurd ((decode_of_rst hr).symm.trans h) (resetOfCode_ne_proc _ p)
  | false =>
    cases he : w.en with
    | true => exact Instr.proc.inj ((decode_of_en hr he).symm.trans h)
    | false => cases (decode_of_en_false hr he).symm.trans h

/-- The words of an operation without operand are those of its row. -/
theorem holds_iff_decode_eq {i : Instr} (hi : ∀ p, i ≠ .proc p) (w : OpWord) :
    (opcodeRow i).holds w = true ↔ decode w = i := by
  rw [holds_iff_eq_opcodeRow_decode (opcodeRow_mem_opcodeMap i), opcodeRow_eq_iff]
  constructor
  · rintro (rfl | ⟨⟨p, hp⟩, -⟩)
    · rfl
    · exact absurd hp (hi p)
  · exact fun h => .inl h.symm

/-- The words of the row of `PROC` are those that decode to the `PROC` of their sample, whatever the row's own operand. -/
theorem holds_proc_iff (p : Pin) (w : OpWord) : (opcodeRow (.proc p)).holds w = true ↔ decode w = .proc w.pin := by
  rw [holds_iff_eq_opcodeRow_decode (opcodeRow_mem_opcodeMap _), opcodeRow_eq_iff]
  constructor
  · rintro (h | ⟨-, q, hq⟩)
    · rw [pin_of_decode_eq_proc h.symm, h]
    · rw [pin_of_decode_eq_proc hq, hq]
  · exact fun h => .inr ⟨⟨p, rfl⟩, w.pin, h⟩

/-- Exactly one row of the map holds of a word: the map has no row twice, and it has the row of every operation. -/
theorem opcodeMap_filter_holds (w : OpWord) :
    opcodeMap.filter (fun r => r.holds w) = [opcodeRow (decode w)] := by
  have hnodup : opcodeMap.Nodup := by decide
  have hone : opcodeMap.count (opcodeRow (decode w)) = 1 :=
    List.count_eq_one_of_mem hnodup (opcodeRow_mem_opcodeMap _)
  have hrow : ∀ r ∈ opcodeMap, r.holds w = (r == opcodeRow (decode w)) := fun r hr =>
    Bool.eq_iff_iff.mpr ((holds_iff_eq_opcodeRow_decode hr w).trans beq_iff_eq.symm)
  rw [List.filter_congr hrow, List.filter_beq, hone]
  rfl

/-! ### The encoder (30_encoding.md R77) -/

/-- The sample stands in the low bits of the word of a `PROC`. -/
theorem encode_proc (p : Pin) : encode (.proc p) = 0x04#6 + p.setWidth 6 := by
  revert p; decide

@[simp] theorem decode_encode (i : Instr) : decode (encode i) = i := by
  cases i with
  | proc p => revert p; decide
  | resetFull => rfl
  | resetHalf => rfl
  | resetTri => rfl
  | resetReserved => rfl
  | idle => rfl

theorem encode_injective : Function.Injective encode :=
  Function.LeftInverse.injective decode_encode

theorem opcodeRow_holds_encode (i : Instr) : (opcodeRow i).holds (encode i) = true := by
  rw [holds_iff_eq_opcodeRow_decode (opcodeRow_mem_opcodeMap i), decode_encode]

/-- On enough bits, a word's number is read as that word. -/
theorem opWordOfBits_toNat {nbits : Nat} (h : 6 ≤ nbits) (w : OpWord) : opWordOfBits nbits w.toNat = .ok w := by
  have hlt : w.toNat < 64 := w.isLt
  have hmod : w.toNat % 2 ^ nbits = w.toNat := Nat.mod_eq_of_lt (w.isLt.trans_le (Nat.pow_le_pow_right (by decide) h))
  rw [opWordOfBits, hmod, if_pos hlt, BitVec.ofNat_toNat, BitVec.setWidth_eq]

theorem decodeTableWord_toNat {nbits : Nat} (h : 6 ≤ nbits) (w : OpWord) :
    decodeTableWord nbits w.toNat = some (decode w) := by
  simp only [decodeTableWord, decodeBits, opWordOfBits_toNat h]

/-- The assembler emits the encoder's word of each operation of a line. -/
theorem assemble_singleton {line : List Char} {is : List Instr} (h : parseLine line = .ok is) :
    assemble [line] = .ok (is.map encode) := by
  simp only [assemble, h, List.append_nil]

/-! ### The statements -/

/-- Settles O21: the decoder is a left inverse of the encoder, so the word of an operation lies in that operation's row
and is no other's. -/
theorem decodeEncodeRoundTrip : Obligations.DecodeEncodeRoundTrip := by
  intro i _
  refine ⟨decode_encode i, opcodeRow_holds_encode i, ?_, fun _ h => encode_injective h⟩
  rw [decodeTableWord_toNat (by decide), decode_encode]

/-- Settles O17: each word is decoded as it stands. -/
theorem decodesWrittenOutWords : Obligations.DecodesWrittenOutWords :=
  ⟨rfl, rfl, rfl, rfl, rfl, rfl, rfl, rfl, rfl, rfl⟩

/-- Settles O18: bits 3 and 2 are `rst` and `en`, and with `rst` the code on `variant_sel` chooses one of the four resets. -/
theorem resetWinsOverEnable : Obligations.ResetWinsOverEnable :=
  fun w => ⟨fun hr => decode_of_rst (w := w) hr ▸ resetOfCode_cases w.variantSel, decode_of_en, decode_of_en_false⟩

/-- Settles O19: the row that holds of a word is that of the operation it decodes to, and the row gives the operation back. -/
theorem everyWordHasOneRow : Obligations.EveryWordHasOneRow := by
  refine ⟨rfl, fun w => ?_⟩
  have hrow : ∀ i, (∀ p, i ≠ .proc p) → (w &&& (opcodeRow i).mask = (opcodeRow i).value ↔ decode w = i) :=
    fun i hi => (holds_iff_and_mask_eq _ w).symm.trans (holds_iff_decode_eq hi w)
  exact ⟨opcodeMap_filter_holds w, hrow .resetFull nofun, hrow .resetHalf nofun, hrow .resetTri nofun,
    hrow .resetReserved nofun, (holds_iff_and_mask_eq _ w).symm.trans (holds_proc_iff w.pin w), hrow .idle nofun⟩

/-- Settles O20: the encoder's words as they stand; a word of a row decodes to the row's operation. -/
theorem canonicalWords : Obligations.CanonicalWords :=
  ⟨⟨rfl, rfl, rfl, rfl⟩, ⟨rfl, rfl, rfl, rfl⟩, fun _ _ => assemble_singleton,
    fun _ w hi => (holds_iff_decode_eq hi w).mp, fun p w => (holds_proc_iff p w).mp⟩

/-- Settles O22, by the two values of each word's `rst`: two resets agree in their code, and no reset is a `PROC` or
`IDLE`. -/
theorem ignoredBitsCarryNoMeaning : Obligations.IgnoredBitsCarryNoMeaning := by
  intro w w'
  cases hr : w.rst <;> cases hr' : w'.rst
  case false.false => simpa using decode_eq_iff_of_rst_false hr hr'
  case false.true => simpa [decode_of_rst hr'] using decode_ne_resetOfCode hr w'.variantSel
  case true.false => simpa [decode_of_rst hr] using (decode_ne_resetOfCode hr' w.variantSel).symm
  case true.true => simp [decode_of_rst hr, decode_of_rst hr', resetOfCode_inj]

/-- Settles O23: `SEQ` and `WAIT` word by word, the other expansions as they stand. -/
theorem pseudoInstructionExpansions : Obligations.PseudoInstructionExpansions := by
  refine ⟨fun ps => ?_, rfl, rfl, fun n => List.map_replicate, rfl, rfl, rfl, fun n => decide_eq_true_iff⟩
  rw [Pseudo.expand, List.map_map]
  exact List.map_congr_left fun p _ => encode_proc p

end Sys2Proof.Machine
end

section
/-! SUPPORT. Proofs of the statements on the transition (40_transition.md): what one cycle is for every word and state, `PROC` with
its frame and its step, the outputs, progress and determinism. First the facts about `exec`, `step` and `tick` that they need. -/

namespace Sys2Proof.Machine

/-! ### Why an operation answers what it answers (40_transition.md R85) -/

/-- Either `PROC` finds the two registers it reads, or one of them is unwritten. -/
theorem State.read_or_unwritten (s : State) :
    (∃ b v, s.stateQ = some b ∧ s.variantQ = some v) ∨ (s.stateQ = none ∨ s.variantQ = none) := by
  cases hb : s.stateQ with
  | none => exact .inr (.inl rfl)
  | some b =>
    cases hv : s.variantQ with
    | none => exact .inr (.inr rfl)
    | some v => exact .inl ⟨b, v, rfl, rfl⟩

/-- The one fault of an operation is that of a `PROC` without a row or a variant to read (41_control.md R103). -/
theorem exec_fault {i : Instr} {s : State} {f : Fault} (h : exec i s = .fault f) :
    ∃ p, i = .proc p ∧ (s.stateQ = none ∨ s.variantQ = none) := by
  cases i with
  | proc p =>
    rcases s.read_or_unwritten with ⟨b, v, hb, hv⟩ | hnone
    · cases (exec_proc_of_written hb hv p).symm.trans h
    · exact ⟨p, rfl, hnone⟩
  | resetFull => cases h
  | resetHalf => cases h
  | resetTri => cases h
  | resetReserved => cases h
  | idle => cases h

/-- Only the reserved reset is refused (41_control.md R101). -/
theorem eq_resetReserved_of_refused {i : Instr} {s : State} {r : Refusal} (h : exec i s = .refused r) :
    i = .resetReserved := by
  cases i with
  | resetReserved => rfl
  | proc p =>
    rcases s.read_or_unwritten with ⟨b, v, hb, hv⟩ | hnone
    · cases (exec_proc_of_written hb hv p).symm.trans h
    · cases (exec_proc_of_unwritten hnone p).symm.trans h
  | resetFull => cases h
  | resetHalf => cases h
  | resetTri => cases h
  | idle => cases h

/-- A word that decodes to the reserved reset asks for it (30_encoding.md R79). -/
theorem isReserved_of_decode_eq {w : OpWord} (h : decode w = .resetReserved) : isReserved w = true := by
  revert w; decide

/-- An operation writes registers only: the ROMs, the words, the cycle index and the marks stay. -/
theorem exec_frame {i : Instr} {s t : State} (h : exec i s = .next t) :
    t.mem = s.mem ∧ t.inputs = s.inputs ∧ t.cycle = s.cycle ∧ t.fault = s.fault ∧ t.refused = s.refused := by
  rcases exec_cases h with ⟨v, -, rfl⟩ | ⟨p, b, v, -, -, -, rfl⟩ | ⟨-, rfl⟩ <;> exact ⟨rfl, rfl, rfl, rfl, rfl⟩

/-! ### Ready states (70_reset_and_hazards.md R125) -/

theorem State.written_iff (s : State) :
    s.written = true ↔ (∃ b, s.stateQ = some b) ∧ ∃ v, s.variantQ = some v := by
  simp [State.written, Option.isSome_iff_exists]

/-- No operation takes back that `state_q` and `variant_q` are written. -/
theorem exec_keeps_written {i : Instr} {s t : State} (hs : s.written = true) (h : exec i s = .next t) :
    t.written = true := by
  rcases exec_cases h with ⟨v, -, rfl⟩ | ⟨p, b, v, -, -, hv, rfl⟩ | ⟨-, rfl⟩
  · rfl
  · exact (State.written_iff _).mpr ⟨⟨_, rfl⟩, v, hv⟩
  · exact hs

theorem exec_keeps_ready {i : Instr} {s t : State} (hs : s.Ready) (h : exec i s = .next t) : t.Ready := by
  obtain ⟨hmem, -, -, hf, hr⟩ := exec_frame h
  exact ⟨by rw [State.unmarked, hf, hr]; exact hs.unmarked, hmem ▸ hs.admitted, exec_keeps_written hs.written h,
    exec_keeps_bounded hs.admitted hs.bounded h⟩

theorem State.Ready.nextCycle {s : State} (hs : s.Ready) : s.nextCycle.Ready :=
  ⟨hs.unmarked, hs.admitted, hs.written, hs.bounded⟩

/-- With the registers written, an operation other than the reserved reset answers a next state. -/
theorem exists_exec_next {i : Instr} {s : State} (hs : s.written = true) (hi : i ≠ .resetReserved) :
    ∃ t, exec i s = .next t := by
  cases h : exec i s with
  | next t => exact ⟨t, rfl⟩
  | fault f =>
    obtain ⟨⟨b, hb⟩, v, hv⟩ := s.written_iff.mp hs
    obtain ⟨-, -, hnone | hnone⟩ := exec_fault h
    · cases hb.symm.trans hnone
    · cases hv.symm.trans hnone
  | refused r => exact absurd (eq_resetReserved_of_refused h) hi

/-! ### The cycle (40_transition.md R85) -/

/-- Where nothing stops the cycle, a step is `exec` of the decoded word and the end of the cycle. -/
theorem step_of_inputs {s : State} {w : OpWord} {ws : List OpWord} (hu : s.unmarked = true) (hm : s.mem.admitted)
    (hin : s.inputs = w :: ws) : step s = endCycle (exec (decode w) (s.setInputs ws)) := by
  obtain ⟨hf, hr⟩ := s.unmarked_iff.mp hu
  simp only [step, fetch_of_ready hf hr hm hin]

/-- A step in a marked state answers the recorded reason again (60_exceptions.md R113). -/
theorem step_of_marked {s : State} (hu : s.unmarked = false) :
    (∃ f, s.fault = some f ∧ step s = .fault f) ∨ ∃ r, s.refused = some r ∧ step s = .refused r := by
  cases hf : s.fault with
  | some f => exact .inl ⟨f, rfl, by simp only [step, fetch, hf]⟩
  | none =>
    cases hr : s.refused with
    | some r => exact .inr ⟨r, rfl, by simp only [step, fetch, hf, hr]⟩
    | none => cases hu.symm.trans (s.unmarked_iff.mpr ⟨hf, hr⟩)

theorem State.markFault_of_eq {s : State} {f : Fault} (h : s.fault = some f) : s.markFault f = s := by
  rw [State.markFault, ← h]

theorem State.markRefused_of_eq {s : State} {r : Refusal} (h : s.refused = some r) : s.markRefused r = s := by
  rw [State.markRefused, ← h]

@[simp] theorem State.markRefused_unmarked (s : State) (r : Refusal) : (s.markRefused r).unmarked = false := by
  simp [State.unmarked]

/-- A marked state stays as it is. -/
theorem tick_of_marked {s : State} (hu : s.unmarked = false) (w : OpWord) : tick w s = s := by
  rcases step_of_marked (s := s.setInputs (w :: s.inputs)) hu with ⟨f, hf, hstep⟩ | ⟨r, hr, hstep⟩
  · simp only [tick, hstep]
    exact State.markFault_of_eq hf
  · simp only [tick, hstep]
    exact State.markRefused_of_eq hr

/-- An ill-formed configuration is refused whatever the word is (60_exceptions.md R115). -/
theorem tick_of_not_admitted {s : State} (hu : s.unmarked = true) (hm : ¬ s.mem.admitted) (w : OpWord) :
    ∃ r, tick w s = s.markRefused r := by
  have hsome : firstIllFormed s.mem ≠ none := fun h => hm ((firstIllFormed_eq_none_iff _).mp h)
  obtain ⟨⟨v, r, c⟩, hfirst⟩ := Option.ne_none_iff_exists'.mp hsome
  have hstep := step_of_firstIllFormed (s := s.setInputs (w :: s.inputs)) hu hfirst
  exact ⟨.illFormedRom v r c, by simp only [tick, hstep]⟩

section
variable {s : State} {w : OpWord} (hu : s.unmarked = true) (hm : s.mem.admitted)
include hu hm

theorem tick_of_variantOfCode {v : Variant} (hrst : w.rst = true) (hv : variantOfCode w.variantSel = some v) :
    tick w s = (loadReset v s).nextCycle := by
  obtain ⟨hf, hr⟩ := s.unmarked_iff.mp hu
  exact tick_of_next hf hr hm (by simp only [exec_decode_of_rst hrst, resetTo, hv])

theorem tick_of_reservedCode (hrst : w.rst = true) (hv : w.variantSel = 0b11) :
    tick w s = s.markRefused (.reservedVariant s.cycle) := by
  obtain ⟨hf, hr⟩ := s.unmarked_iff.mp hu
  refine tick_of_refused hf hr hm ?_
  rw [exec_decode_of_rst hrst, hv]
  rfl

theorem tick_of_proc_unwritten {p : Pin} (hd : decode w = .proc p) (hs : s.stateQ = none ∨ s.variantQ = none) :
    tick w s = s.markFault (.unwrittenState s.cycle) := by
  obtain ⟨hf, hr⟩ := s.unmarked_iff.mp hu
  exact tick_of_fault hf hr hm (hd ▸ exec_proc_of_unwritten hs p)

end

/-! ### Outputs and steps (40_transition.md R92, R93, R94) -/

theorem stepO_of_valid {s : State} {b : Byte} (hq : s.validQ = some true) (hb : s.stateQ = some b) :
    s.stepO = some (dec (dirField b)) := by
  simp only [State.stepO, hq, hb, Option.map_some]

theorem stepO_of_invalid {s : State} (hq : s.validQ = some false) : s.stepO = some 0b00 := by
  simp only [State.stepO, hq]

theorem dbgStateO_of_stateQ {s : State} {b : Byte} (hb : s.stateQ = some b) : s.dbgStateO = some (nextField b) := by
  simp only [State.dbgStateO, hb, Option.map_some]

/-- The step value depends on the direction field alone. -/
theorem stepValue_of_dir {b : Byte} {d : BitVec 2} (h : dirField b = d) : stepValue b = sext2 (dec d) := by
  rw [stepValue, h]

/-- A cycle that is not valid shows no step and adds none. -/
theorem no_step_of_invalid {s : State} (hq : s.validQ = some false) :
    s.stepValidO = some false ∧ s.stepO = some 0b00 ∧ countOf s.shown = 0 :=
  ⟨hq, stepO_of_invalid hq, countOf_shown_of_invalid hq⟩

/-! ### States that no word tells apart (40_transition.md R91) -/

/-- The states agree in the registers, in the tables as read, and in whether a mark is set. Their cycle indices, the reasons
of their marks and the way their memories list the cells may differ. -/
structure State.Agrees (s s' : State) : Prop where
  stateQ : s.stateQ = s'.stateQ
  variantQ : s.variantQ = s'.variantQ
  validQ : s.validQ = s'.validQ
  rom : ∀ v, s.mem.rom v = s'.mem.rom v
  unmarked : s.unmarked = s'.unmarked

section
variable {s s' : State} (h : s.Agrees s')
include h

theorem State.Agrees.admitted_iff : s.mem.admitted ↔ s'.mem.admitted := by
  simp only [Memory.admitted, h.rom]

theorem State.Agrees.shown_eq : s.shown = s'.shown := by
  rw [State.shown, State.shown, h.unmarked, outputs_congr h.stateQ h.validQ]

theorem State.Agrees.nextCycle : s.nextCycle.Agrees s'.nextCycle :=
  ⟨h.stateQ, h.variantQ, h.validQ, h.rom, h.unmarked⟩

/-- A mark set in both, whatever its reason, leaves them in agreement. -/
theorem State.Agrees.markFault (f f' : Fault) : (s.markFault f).Agrees (s'.markFault f') :=
  ⟨h.stateQ, h.variantQ, h.validQ, h.rom, rfl⟩

theorem State.Agrees.markRefused (r r' : Refusal) : (s.markRefused r).Agrees (s'.markRefused r') :=
  ⟨h.stateQ, h.variantQ, h.validQ, h.rom,
    (State.markRefused_unmarked s r).trans (State.markRefused_unmarked s' r').symm⟩

/-- Each operation's next state is made of what the states agree in. -/
theorem State.Agrees.exec_next {i : Instr} {t : State} (ht : exec i s = .next t) :
    ∃ t', exec i s' = .next t' ∧ t.Agrees t' := by
  rcases exec_cases ht with ⟨v, hi, rfl⟩ | ⟨p, b, v, rfl, hb, hv, rfl⟩ | ⟨rfl, rfl⟩
  · refine ⟨loadReset v s', ?_, rfl, rfl, rfl, h.rom, h.unmarked⟩
    rcases hi with ⟨rfl, rfl⟩ | ⟨rfl, rfl⟩ | ⟨rfl, rfl⟩ <;> rfl
  · refine ⟨_, exec_proc_of_written (h.stateQ ▸ hb) (h.variantQ ▸ hv) p, ?_, h.variantQ, rfl, h.rom, h.unmarked⟩
    rw [afterProc_stateQ, afterProc_stateQ, h.rom v]
  · exact ⟨_, rfl, h.stateQ, h.variantQ, rfl, h.rom, h.unmarked⟩

theorem State.Agrees.exec_fault {i : Instr} {f : Fault} (hf : exec i s = .fault f) :
    ∃ f', exec i s' = .fault f' := by
  obtain ⟨p, rfl, hnone⟩ := Machine.exec_fault hf
  rw [h.stateQ, h.variantQ] at hnone
  exact ⟨_, exec_proc_of_unwritten hnone p⟩

/-- One edge with the same word keeps agreement. -/
theorem State.Agrees.tick (w : OpWord) : (tick w s).Agrees (tick w s') := by
  cases hu : s.unmarked with
  | false =>
    rw [tick_of_marked hu, tick_of_marked (h.unmarked ▸ hu)]
    exact h
  | true =>
    have hu' : s'.unmarked = true := h.unmarked ▸ hu
    by_cases hm : s.mem.admitted
    · have hm' := h.admitted_iff.mp hm
      obtain ⟨hf, hr⟩ := s.unmarked_iff.mp hu
      obtain ⟨hf', hr'⟩ := s'.unmarked_iff.mp hu'
      cases hexec : exec (decode w) s with
      | next t =>
        obtain ⟨t', hexec', ht⟩ := h.exec_next hexec
        rw [tick_of_next hf hr hm hexec, tick_of_next hf' hr' hm' hexec']
        exact ht.nextCycle
      | fault f =>
        obtain ⟨f', hexec'⟩ := h.exec_fault hexec
        rw [tick_of_fault hf hr hm hexec, tick_of_fault hf' hr' hm' hexec']
        exact h.markFault f f'
      | refused r =>
        have hexec' : exec (decode w) s' = .refused (.reservedVariant s'.cycle) := by
          rw [eq_resetReserved_of_refused hexec]
          rfl
        rw [tick_of_refused hf hr hm hexec, tick_of_refused hf' hr' hm' hexec']
        exact h.markRefused r _
    · obtain ⟨r, hr⟩ := tick_of_not_admitted hu hm w
      obtain ⟨r', hr'⟩ := tick_of_not_admitted hu' (mt h.admitted_iff.mpr hm) w
      rw [hr, hr']
      exact h.markRefused r r'

theorem State.Agrees.run (ws : List OpWord) : (run ws s).Agrees (run ws s') := by
  induction ws generalizing s s' with
  | nil => exact h
  | cons w ws ih => exact ih (h.tick w)

theorem State.Agrees.observe_eq (ws : List OpWord) : observe ws s = observe ws s' := by
  induction ws generalizing s s' with
  | nil => rfl
  | cons w ws ih => rw [observe, observe, (h.tick w).shown_eq, ih (h.tick w)]

end

/-! ### The statements -/

/-- Settles O46: with the registers written only the reserved reset has no next state, and no operation leaves the ready
states. -/
theorem everyLegalWordHasANextState : Obligations.EveryLegalWordHasANextState := by
  intro s w hs hres
  have hdec : decode w ≠ .resetReserved := fun h => by cases hres.symm.trans (isReserved_of_decode_eq h)
  obtain ⟨t, ht⟩ := exists_exec_next hs.written hdec
  obtain ⟨-, hin, hcycle, -, -⟩ := exec_frame ht
  have hstep : step (s.setInputs (w :: s.inputs)) = endCycle (exec (decode w) s) :=
    step_of_inputs (s := s.setInputs (w :: s.inputs)) hs.unmarked hs.admitted rfl
  refine ⟨t.nextCycle, ?_, (exec_keeps_ready hs ht).nextCycle, hin, congrArg (· + 1) hcycle⟩
  exact hstep.trans (congrArg endCycle ht)

/-- Settles O52: the two states agree in all that an edge or an output reads, and every edge keeps that. -/
theorem runsAreDeterministic : Obligations.RunsAreDeterministic := by
  intro ws s s' hu hu' hb hv hq hrom
  have h : s.Agrees s' := ⟨hb, hv, hq, hrom, hu.trans hu'.symm⟩
  have hend := h.run ws
  exact ⟨h.observe_eq ws, hend.stateQ, hend.variantQ, hend.validQ⟩

/-- Settles O12: with bit 3 = 0 the low four bits of the state byte are its row. -/
theorem rowIndexAgreesWithSource : Obligations.RowIndexAgreesWithSource :=
  fun m v _ p hb => sourceCell_eq_rom hb (m.rom v) p

/-- Settles O13: `PROC` loads the cell that `process` returns, and the output decoder gives its step; a reset and an `IDLE` clear
`valid_q`. -/
theorem stepShowsInTheNextCycle : Obligations.StepShowsInTheNextCycle := by
  constructor
  · intro s w p b₀ v hu hm hb hv hwf hd
    rw [tick_of_proc hu hm hb hv hd]
    exact ⟨_, _, _, sourceProcess_of_wf (hm v) hwf p, rfl, rfl, rfl, rfl, stepValue_of_dir, stepValue_of_dir,
      stepValue_of_dir, countOf_shown_of_valid hu rfl rfl⟩
  · rintro s w hu hm (⟨hrst, hres⟩ | hd)
    · obtain ⟨v, -, htick⟩ := tick_of_legalReset hu hm hrst hres
      rw [htick]
      exact no_step_of_invalid rfl
    · rw [tick_of_idle hu hm hd]
      exact no_step_of_invalid rfl

/-- Settles O38: `PROC` has the frame of every operation, and does not write `variant_q`. -/
theorem frameOfProc : Obligations.FrameOfProc := by
  intro p s t h
  obtain ⟨hmem, hin, hcycle, hf, hr⟩ := exec_frame h
  obtain ⟨b, v, -, -, rfl⟩ := execProc_next h
  exact ⟨rfl, hmem, fun _ => rfl, fun _ => rfl, hin, hcycle, hf, hr⟩

/-- Settles O42: one lemma on `tick` per clause. -/
theorem cycleDispatch : Obligations.CycleDispatch := by
  refine fun w s => ⟨fun hu => tick_of_marked hu w, fun hu hm => ⟨fun hrst => ⟨fun v hv => ?_, fun hv => ?_⟩,
    fun hrst hen => ⟨fun b v hb hv => ?_, fun hs => ?_⟩, fun hrst hen => ?_⟩⟩
  · exact tick_of_variantOfCode hu hm hrst hv
  · exact tick_of_reservedCode hu hm hrst hv
  · exact tick_of_proc hu hm hb hv (decode_of_en hrst hen)
  · exact tick_of_proc_unwritten hu hm (decode_of_en hrst hen) hs
  · exact tick_of_idle hu hm (decode_of_en_false hrst hen)

/-- Settles O10: the words are those of the row of `PROC`; the next state is given whole, and its outputs with it. -/
theorem procResult : Obligations.ProcResult := by
  refine ⟨fun w hw => ?_, fun p => ?_, fun p s b v hb hv => ?_, fun p s hs => exec_proc_of_unwritten hs p,
    fun s hb hv hcell => ?_⟩
  · exact (holds_proc_iff w.pin w).mp ((holds_iff_and_mask_eq _ w).mpr hw)
  · revert p; decide
  · exact ⟨_, exec_proc_of_written hb hv p, rfl, rfl, rfl⟩
  · have hload : exec (.proc 3) s = .next (afterProc (s.mem.rom .full 7 3) s) := exec_proc_of_written hb hv 3
    rw [hcell] at hload
    exact ⟨_, hload, rfl, rfl⟩

/-- Settles O14: the rows of the table as they stand, and the hardware form on each of the four codes. -/
theorem outputDecoderTable : Obligations.OutputDecoderTable :=
  ⟨⟨rfl, rfl⟩, ⟨rfl, rfl⟩, ⟨rfl, rfl⟩, ⟨rfl, rfl⟩, by decide⟩

/-- Settles O15: one lemma per output and per case of the registers that it reads. -/
theorem outputsFollowTheRegisters : Obligations.OutputsFollowTheRegisters := by
  refine fun s => ⟨fun b hq hb => stepO_of_valid hq hb, stepO_of_invalid, ?_, rfl, fun b hb => dbgStateO_of_stateQ hb,
    dbgStateO_of_stateQ_none, fun s' hb _ hq => outputs_congr hb hq⟩
  rintro (hq | ⟨hq, hb⟩)
  · exact stepO_of_validQ_none hq
  · exact stepO_of_stateQ_none hq hb

/-- Settles O40: each outcome of `exec` passes through the end of the cycle. -/
theorem stepRunsTheDecodedOperation : Obligations.StepRunsTheDecodedOperation := by
  intro s w ws hu hm hin
  have hstep := step_of_inputs hu hm hin
  have hend : ∀ o, exec (decode w) (s.setInputs ws) = o → step s = endCycle o :=
    fun o ho => hstep.trans (congrArg endCycle ho)
  exact ⟨by cases decode w <;> rfl, fun t => hend (.next t), fun f => hend (.fault f), fun r => hend (.refused r)⟩

end Sys2Proof.Machine
end

section
/-! SUPPORT. Proofs of the statements on the control operations (41_control.md): the legal resets, the reserved one, a `PROC`
before the first reset, and any number of `IDLE` cycles. First the facts about words, single operations and runs that they
need. -/

namespace Sys2Proof.Machine

/-! ### Words (30_encoding.md R70, R75, R79) -/

@[simp] theorem rst_ofPorts (x : BitVec 2) (rst en : Bool) (p : Pin) : (OpWord.ofPorts x rst en p).rst = rst := by
  revert x rst en p; decide

@[simp] theorem variantSel_ofPorts (x : BitVec 2) (rst en : Bool) (p : Pin) :
    (OpWord.ofPorts x rst en p).variantSel = x := by
  revert x rst en p; decide

/-- A word whose bits under the mask are those of the row of an operation without operand decodes to that operation. -/
theorem decode_of_and_mask_eq {i : Instr} (hi : ∀ p, i ≠ .proc p) {w : OpWord}
    (hw : w &&& (opcodeRow i).mask = (opcodeRow i).value) : decode w = i :=
  (holds_iff_decode_eq hi w).mp ((holds_iff_and_mask_eq _ w).mpr hw)

/-- Bits 5:3 are all set exactly in the last eight words. -/
theorem decode_eq_resetReserved_iff (w : OpWord) : decode w = .resetReserved ↔ 0x38 ≤ w.toNat := by
  revert w; decide

/-! ### The legal resets (41_control.md R100, R102) -/

theorem exec_resetInstr (v : Variant) (s : State) : exec (resetInstr v) s = .next (loadReset v s) := by
  cases v <;> rfl

/-- A cycle that is not valid shows step 0, and the state byte's next field. -/
theorem outputs_of_invalid {s : State} {b : Byte} (hq : s.validQ = some false) (hb : s.stateQ = some b) :
    s.outputs = ⟨some 0b00, some false, some (nextField b)⟩ := by
  rw [State.outputs, stepO_of_invalid hq, State.stepValidO, hq, dbgStateO_of_stateQ hb]

theorem loadReset_outputs (v : Variant) (s : State) : (loadReset v s).outputs = ⟨some 0b00, some false, some 4⟩ :=
  outputs_of_invalid (b := 0x04) rfl rfl

theorem shown_of_unmarked {s : State} (h : s.unmarked = true) : s.shown = some s.outputs :=
  if_pos h

/-- From the next cycle on a reset shows (00, 0, 4). -/
theorem loadReset_nextCycle_shown (v : Variant) {s : State} (hu : s.unmarked = true) :
    (loadReset v s).nextCycle.shown = some ⟨some 0b00, some false, some 4⟩ :=
  (shown_of_unmarked (s := (loadReset v s).nextCycle) hu).trans (congrArg some (loadReset_outputs v s))

/-- One edge with `rst` and a legal code on the ports is a reset, whatever `en` and `pin` are. -/
theorem tick_ofPorts_rst {s : State} (hu : s.unmarked = true) (hm : s.mem.admitted) {x : BitVec 2} {v : Variant}
    (hx : variantOfCode x = some v) (en : Bool) (p : Pin) :
    tick (OpWord.ofPorts x true en p) s = (loadReset v s).nextCycle :=
  tick_of_variantOfCode hu hm (rst_ofPorts x true en p) ((variantSel_ofPorts x true en p).symm ▸ hx)

/-! ### Runs after a mark (60_exceptions.md R113) -/

theorem run_of_marked {s : State} (hu : s.unmarked = false) (ws : List OpWord) : run ws s = s :=
  run_keeps (P := (· = s)) (fun w _ ht => ht ▸ tick_of_marked hu w) ws rfl

theorem finalState_of_marked {s : State} (hu : s.unmarked = false) (ws : List OpWord) : finalState ws s = none := by
  simp [finalState, run_of_marked hu, hu]

/-! ### Runs of `IDLE` (41_control.md R105) -/

/-- The state after `n` cycles of `IDLE`. -/
def afterIdles (n : Nat) (s : State) : State :=
  { s with validQ := if n = 0 then s.validQ else some false, cycle := s.cycle + n }

@[simp] theorem afterIdles_stateQ (n : Nat) (s : State) : (afterIdles n s).stateQ = s.stateQ := rfl
@[simp] theorem afterIdles_variantQ (n : Nat) (s : State) : (afterIdles n s).variantQ = s.variantQ := rfl
@[simp] theorem afterIdles_mem (n : Nat) (s : State) : (afterIdles n s).mem = s.mem := rfl
@[simp] theorem afterIdles_unmarked (n : Nat) (s : State) : (afterIdles n s).unmarked = s.unmarked := rfl

theorem afterIdles_validQ {n : Nat} (h : n ≠ 0) (s : State) : (afterIdles n s).validQ = some false :=
  if_neg h

/-- One `IDLE` in front of `n` others is the first of `n + 1`. -/
theorem afterIdles_succ (n : Nat) (s : State) :
    afterIdles n (s.setValidQ false).nextCycle = afterIdles (n + 1) s := by
  simp [afterIdles, State.setValidQ, State.nextCycle, Nat.add_assoc, Nat.add_comm 1]

theorem run_of_idles {ws : List OpWord} {s : State} (hu : s.unmarked = true) (hm : s.mem.admitted)
    (hws : ∀ w ∈ ws, decode w = .idle) : run ws s = afterIdles ws.length s := by
  induction ws generalizing s with
  | nil => rfl
  | cons w ws ih =>
    obtain ⟨hw, hrest⟩ := List.forall_mem_cons.mp hws
    calc run (w :: ws) s = run ws (s.setValidQ false).nextCycle := by rw [run, tick_of_idle hu hm hw]
      _ = afterIdles ws.length (s.setValidQ false).nextCycle := ih hu hm hrest
      _ = afterIdles (ws.length + 1) s := afterIdles_succ ws.length s

/-- What `PROC` does depends on `state_q`, `variant_q` and the ROMs: where two states have these alike it leaves the same
`state_q`, and where they are written it shows the same outputs. -/
theorem tick_proc_congr {s t : State} {w : OpWord} {p : Pin} (hu : s.unmarked = true) (hut : t.unmarked = true)
    (hm : s.mem.admitted) (hmem : t.mem = s.mem) (hb : t.stateQ = s.stateQ) (hv : t.variantQ = s.variantQ)
    (hd : decode w = .proc p) :
    (tick w t).stateQ = (tick w s).stateQ ∧ (s.written = true → (tick w t).outputs = (tick w s).outputs) := by
  have hmt : t.mem.admitted := hmem ▸ hm
  rcases s.read_or_unwritten with ⟨b, v, hsb, hsv⟩ | hnone
  · rw [tick_of_proc hu hm hsb hsv hd, tick_of_proc hut hmt (hb.trans hsb) (hv.trans hsv) hd, hmem]
    exact ⟨rfl, fun _ => rfl⟩
  · rw [tick_of_proc_unwritten hu hm hd hnone, tick_of_proc_unwritten hut hmt hd (hb ▸ hv ▸ hnone)]
    refine ⟨hb, fun hw => ?_⟩
    rcases hnone with hnone | hnone <;> simp [State.written, hnone] at hw

/-! ### The statements -/

/-- Settles O9: by induction on the words, the `IDLE` cycles change `valid_q` and the cycle index alone, and `PROC` reads
neither. -/
theorem idleCyclesAreTransparent : Obligations.IdleCyclesAreTransparent := by
  intro ws s hu hm hws
  have hidle : ∀ w ∈ ws, decode w = .idle := fun w hw => decode_of_and_mask_eq (i := .idle) nofun (hws w hw)
  rw [run_of_idles hu hm hidle]
  refine ⟨afterIdles_stateQ _ s, afterIdles_variantQ _ s, hu, fun hne => ?_, fun hnone => dbgStateO_of_stateQ_none hnone,
    fun w p hd => ?_⟩
  · have hq : (afterIdles ws.length s).validQ = some false := afterIdles_validQ (mt List.length_eq_zero_iff.mp hne) s
    exact ⟨hq, stepO_of_invalid hq⟩
  · exact tick_proc_congr hu hu hm (afterIdles_mem _ s) (afterIdles_stateQ _ s) (afterIdles_variantQ _ s) hd

/-- Settles O3: the fault is recorded as a mark, and a marked state stays as it is. -/
theorem earlySampleFaultsForGood : Obligations.EarlySampleFaultsForGood := by
  intro s w p hu hm hnone hd
  have htick : tick w s = s.markFault (.unwrittenState s.cycle) := tick_of_proc_unwritten hu hm hd hnone
  have hmarked : (tick w s).unmarked = false := by rw [htick]; rfl
  exact ⟨htick, fun ws => ⟨run_of_marked hmarked ws, finalState_of_marked hmarked ws⟩⟩

/-- Settles O5: the refusal is recorded as a mark, and a marked state stays as it is. -/
theorem reservedResetIsRefused : Obligations.ReservedResetIsRefused := by
  refine ⟨decode_eq_resetReserved_iff, fun _ => rfl, fun s w hu hm hw => ?_⟩
  have hd : decode w = .resetReserved := (decode_eq_resetReserved_iff w).mpr hw
  obtain ⟨hf, hr⟩ := s.unmarked_iff.mp hu
  have htick : tick w s = s.markRefused (.reservedVariant s.cycle) := tick_of_refused hf hr hm (hd ▸ rfl)
  have hmarked : (tick w s).unmarked = false := by rw [htick, State.markRefused_unmarked]
  exact ⟨htick, fun ws => ⟨run_of_marked hmarked ws, finalState_of_marked hmarked ws⟩⟩

/-- Settles O6: a reset cycle loads its three registers from every unmarked state, one after a reset or a `PROC` too; what a
cycle shows, the edge before it has loaded. -/
theorem resetDiscardsProgress : Obligations.ResetDiscardsProgress := by
  intro s x v en p hu hm hx
  have htick : tick (OpWord.ofPorts x true en p) s = (loadReset v s).nextCycle := tick_ofPorts_rst hu hm hx en p
  refine ⟨htick, fun x' v' en' p' hx' => ?_, fun w q b u hd hb hv => ?_⟩
  · have hsecond : tick (OpWord.ofPorts x' true en' p') (loadReset v s).nextCycle =
        (loadReset v' (loadReset v s).nextCycle).nextCycle :=
      tick_ofPorts_rst (s := (loadReset v s).nextCycle) hu hm hx' en' p'
    rw [htick, hsecond]
    exact ⟨rfl, rfl, rfl⟩
  · have hs : s.StandsAt u (s.mem.rom u) b := ⟨hu, hm, hv, rfl, hb⟩
    have hproc := hs.after_tick hd
    have hreset : tick (OpWord.ofPorts x true en p) (tick w s) = (loadReset v (tick w s)).nextCycle :=
      tick_ofPorts_rst hproc.unmarked hproc.admitted hx en p
    rw [observe, observe, observe, hreset, loadReset_nextCycle_shown v hproc.unmarked,
      shown_of_unmarked hproc.unmarked, hs.tick_outputs hd]
    rfl

/-- Settles O37: the resets have the frame of every operation. -/
theorem frameOfLegalResets : Obligations.FrameOfLegalResets := by
  intro i s t _ h
  obtain ⟨hmem, hin, hcycle, hf, hr⟩ := exec_frame h
  exact ⟨hmem, fun a => congrArg (·.byte a) hmem, fun v => congrArg (·.rom v) hmem, hin, hcycle, hf, hr⟩

/-- Settles O4: the words are those of the rows of the resets; each reset loads its registers from every state. -/
theorem legalResetResult : Obligations.LegalResetResult := by
  refine ⟨fun w => ⟨decode_of_and_mask_eq (i := .resetFull) nofun, decode_of_and_mask_eq (i := .resetHalf) nofun,
    decode_of_and_mask_eq (i := .resetTri) nofun⟩, fun s => ⟨exec_resetInstr .full s, exec_resetInstr .half s,
    exec_resetInstr .tri s, rfl, fun v t ht => ?_⟩⟩
  cases (exec_resetInstr v s).symm.trans ht
  exact loadReset_outputs v s

/-- Settles O8: the words are those of the row of `IDLE`, whose one write hides the step and keeps the state byte. -/
theorem idleResult : Obligations.IdleResult :=
  ⟨fun _ => decode_of_and_mask_eq (i := .idle) nofun, rfl, fun _ => rfl,
    fun s hb _ => ⟨s.setValidQ false, rfl, hb, outputs_of_invalid (s := s.setValidQ false) rfl hb⟩⟩

/-- Settles O39: `IDLE` has the frame of every operation, and writes neither `state_q` nor `variant_q`. -/
theorem frameOfIdle : Obligations.FrameOfIdle := by
  intro s t h
  obtain ⟨hmem, hin, hcycle, hf, hr⟩ := exec_frame h
  cases h
  exact ⟨rfl, rfl, hmem, fun _ => rfl, fun _ => rfl, hin, hcycle, hf, hr⟩

end Sys2Proof.Machine
end

section
/-! SUPPORT. Proofs of the statements on exceptional conditions (60_exceptions.md): runs from a ready state, runs after a mark,
and several instances. First what an edge makes of a ready state, what a marked run shows, and what an edge of one instance is to
the list of them. -/

namespace Sys2Proof.Machine

/-! ### Runs from a ready state (60_exceptions.md R110, 70_reset_and_hazards.md R135) -/

theorem tick_of_step_next {w : OpWord} {s t : State} (h : step (s.setInputs (w :: s.inputs)) = .next t) :
    tick w s = t := by
  simp only [tick, h]

theorem length_observe (ws : List OpWord) (s : State) : (observe ws s).length = ws.length := by
  induction ws generalizing s with
  | nil => rfl
  | cons w ws ih => exact congrArg (· + 1) (ih (tick w s))

/-- One edge with a word other than the reserved reset. -/
theorem State.Ready.tick {s : State} (hs : s.Ready) {w : OpWord} (hw : isReserved w = false) :
    (tick w s).Ready ∧ (tick w s).cycle = s.cycle + 1 := by
  obtain ⟨t, hstep, ht, -, hcycle⟩ := everyLegalWordHasANextState s w hs hw
  rw [tick_of_step_next hstep]
  exact ⟨ht, hcycle⟩

theorem State.Ready.run {s : State} (hs : s.Ready) {ws : List OpWord} (hws : ∀ w ∈ ws, isReserved w = false) :
    (run ws s).Ready ∧ (run ws s).cycle = s.cycle + ws.length := by
  induction ws generalizing s with
  | nil => exact ⟨hs, rfl⟩
  | cons w ws ih =>
    obtain ⟨hw, hrest⟩ := List.forall_mem_cons.mp hws
    obtain ⟨hready, hcycle⟩ := hs.tick hw
    obtain ⟨hend, hlast⟩ := ih hready hrest
    refine ⟨hend, hlast.trans ?_⟩
    rw [hcycle, List.length_cons, Nat.add_assoc, Nat.add_comm 1]

/-- Every edge leaves a state without marks, and such a state shows its outputs. -/
theorem State.Ready.observe_ne_none {s : State} (hs : s.Ready) {ws : List OpWord}
    (hws : ∀ w ∈ ws, isReserved w = false) : ∀ o ∈ observe ws s, o ≠ none := by
  induction ws generalizing s with
  | nil => exact nofun
  | cons w ws ih =>
    obtain ⟨hw, hrest⟩ := List.forall_mem_cons.mp hws
    obtain ⟨hready, -⟩ := hs.tick hw
    have hshown : (Machine.tick w s).shown ≠ none := by
      rw [shown_of_unmarked hready.unmarked]
      exact Option.some_ne_none _
    exact List.forall_mem_cons.mpr ⟨hshown, ih hready hrest⟩

/-! ### What a marked run shows (60_exceptions.md R113; log 13) -/

theorem shown_of_marked {s : State} (hu : s.unmarked = false) : s.shown = none := by
  simp [State.shown, hu]

theorem observe_of_marked {s : State} (hu : s.unmarked = false) (ws : List OpWord) :
    observe ws s = List.replicate ws.length none := by
  induction ws with
  | nil => rfl
  | cons w ws ih => rw [observe, tick_of_marked hu, shown_of_marked hu, ih, List.length_cons, List.replicate_succ]

/-! ### Several instances (60_exceptions.md R121) -/

/-- An edge of instance `i` is a tick at that place of the list, and nothing where there is no such instance. -/
theorem tickAt_eq_modify (i : Nat) (w : OpWord) (sys : Instances) : tickAt i w sys = sys.modify i (tick w) := by
  induction sys generalizing i with
  | nil => cases i <;> rfl
  | cons s rest ih =>
    cases i with
    | zero => rfl
    | succ i => rw [tickAt, ih, List.modify_succ_cons]

/-! ### The statements -/

/-- Settles O51: by induction on the words every edge leads to a ready state, which has no mark, shows its outputs and has the
ROMs of the start. -/
theorem legalRunsHaveFinalStates : Obligations.LegalRunsHaveFinalStates := by
  intro s ws hs hws
  obtain ⟨hready, hcycle⟩ := hs.run hws
  have hfinal : finalState ws s = some (run ws s) :=
    (finalState_eq_some_iff ws s _).mpr ⟨hready.unmarked, hs.admitted, rfl⟩
  exact ⟨run ws s, hfinal, hready, hcycle, run_mem ws s, length_observe ws s, hs.observe_ne_none hws⟩

/-- Settles O43: the step answers the recorded reason again, so that every edge leaves the state as it is. -/
theorem marksAreSticky : Obligations.MarksAreSticky := by
  intro s hu
  refine ⟨fun t ht => ?_, fun ws => ⟨run_of_marked hu ws, finalState_of_marked hu ws, fun o ho => ?_⟩⟩
  · rcases step_of_marked hu with ⟨f, -, hstep⟩ | ⟨r, -, hstep⟩
    · cases hstep.symm.trans ht
    · cases hstep.symm.trans ht
  · rw [observe_of_marked hu] at ho
    exact List.eq_of_mem_replicate ho

/-- Settles O54: an edge of instance `i` modifies the list at place `i` alone. -/
theorem instancesAreIndependent : Obligations.InstancesAreIndependent := by
  intro i w sys
  rw [tickAt_eq_modify]
  exact ⟨List.length_modify .., fun j hj => List.getElem?_modify_ne _ _ hj.symm, List.getElem?_modify_eq ..⟩

end Sys2Proof.Machine
end

section
/-! SUPPORT. Proofs of the statements on reset and hazards (70_reset_and_hazards.md): the state after a legal reset cycle, where
`variant_sel` is read, and a step without a word. First what the decoder and `exec` make of a word without `rst`, and what is
fetched where no word is driven. -/

namespace Sys2Proof.Machine

/-! ### Words without `rst` (30_encoding.md R72; 70_reset_and_hazards.md R128) -/

@[simp] theorem rst_and_low (w : OpWord) : (w &&& 0x0F).rst = w.rst := by
  revert w; decide

/-- Without `rst` the bits of `variant_sel` may be cleared. -/
theorem decode_and_low {w : OpWord} (h : w.rst = false) : decode (w &&& 0x0F) = decode w := by
  revert w; decide

/-- A `PROC` and an `IDLE` do not write `variant_q`. -/
theorem exec_decode_keeps_variantQ {w : OpWord} {s t : State} (hrst : w.rst = false)
    (h : exec (decode w) s = .next t) : t.variantQ = s.variantQ := by
  cases hen : w.en with
  | true =>
    rw [decode_of_en hrst hen] at h
    obtain ⟨b, v, -, -, rfl⟩ := execProc_next h
    rfl
  | false =>
    rw [decode_of_en_false hrst hen] at h
    cases h
    rfl

/-- A word with `rst` that answers a next state has a legal code and does the register writes of a reset cycle. -/
theorem exec_decode_next_of_rst {w : OpWord} {s t : State} (hrst : w.rst = true) (h : exec (decode w) s = .next t) :
    ∃ v, variantOfCode w.variantSel = some v ∧ t = loadReset v s :=
  resetTo_next ((exec_decode_of_rst hrst s).symm.trans h)

/-! ### After a reset cycle (70_reset_and_hazards.md R124, R125) -/

theorem loadReset_ready (v : Variant) {s : State} (hu : s.unmarked = true) (hm : s.mem.admitted) :
    (loadReset v s).Ready :=
  ⟨hu, hm, rfl, loadReset_bounded v s⟩

/-! ### No further word (70_reset_and_hazards.md R135; log 4) -/

theorem fetch_of_no_inputs {s : State} (hu : s.unmarked = true) (hm : s.mem.admitted) (hin : s.inputs = []) :
    fetch s = .refused .noOperationWord := by
  obtain ⟨hf, hr⟩ := s.unmarked_iff.mp hu
  simp only [fetch, hf, hr, (firstIllFormed_eq_none_iff _).mpr hm, hin]

/-! ### The statements -/

/-- Settles O7: the reset cycle writes the registers, START is within the bound, and marks and ROMs stay as they are. -/
theorem legalResetMakesReady : Obligations.LegalResetMakesReady := by
  intro s w hu hm hrst hres
  obtain ⟨v, -, htick⟩ := tick_of_legalReset hu hm hrst hres
  exact htick ▸ (loadReset_ready v hu hm).nextCycle

/-- Settles O45: without `rst` the decoder reads the low four bits alone, and only a reset writes `variant_q`. -/
theorem variantChangesOnlyAtReset : Obligations.VariantChangesOnlyAtReset := by
  refine ⟨fun w w' hrst hlow => ?_, fun s t w ws hin hstep => ?_⟩
  · have hrst' : w'.rst = false := by rw [← rst_and_low, ← hlow, rst_and_low, hrst]
    rw [← decode_and_low hrst, hlow, decode_and_low hrst']
  · obtain ⟨-, -, -, w', ws', u, hin', hexec, rfl⟩ := step_next hstep
    cases hin.symm.trans hin'
    refine ⟨fun hrst => exec_decode_keeps_variantQ (s := s.setInputs ws) (t := u) hrst hexec, fun hrst => ?_⟩
    obtain ⟨v, hv, rfl⟩ := exec_decode_next_of_rst hrst hexec
    exact ⟨hv.symm, rfl, rfl⟩

/-- Settles O41: with no word to fetch the refusal of the fetch is that of the step. -/
theorem noWordEndsTheRun : Obligations.NoWordEndsTheRun := by
  intro s hu hm hin
  simp only [step, fetch_of_no_inputs hu hm hin]

end Sys2Proof.Machine
end
